-- ==== Sys2Proof/Word.lean ====
section
/-! DEFINITION. Word.lean: the two word types of the machine. -/

namespace Sys2Proof

/-- The 8-bit unsigned data width of A, X, Y, P, memory cells and operand bytes (00_scope.md R6). -/
abbrev Byte := BitVec 8

/-- The 16-bit width of addresses and of the program counter, wrapping modulo 65536 (00_scope.md R6). -/
abbrev Addr := BitVec 16

end Sys2Proof
end

