-- ==== Sys2Proof/Syntax.lean ====
section
/-! DEFINITION. Syntax.lean: addressing modes, instruction identities, descriptors, and the instructions, one constructor of `Instr`
per row of spec/opcode_table.json (30_encoding.md R58). -/

namespace Sys2Proof

/-- The closed set of ten addressing modes, in the source's order (30_encoding.md R54). -/
inductive Mode where
  | immediate
  | zeroPage
  | zeroPageX
  | zeroPageY
  | absolute
  | absoluteX
  | absoluteY
  | indirectX
  | indirectY
  | implied
deriving DecidableEq, Repr

/-- An instruction identity as a descriptor names it (30_encoding.md R53): the six that have a handler (00_scope.md R3), and any
further identity an opcode table may name, which has none (R59, R118). -/
inductive Mnemonic where
  | loadAccumulator
  | storeAccumulator
  | addWithCarry
  | transferAccumulatorToX
  | incrementX
  | brk
  | other (id : Nat)
deriving DecidableEq, Repr

/-- `OpcodeDescriptor` (30_encoding.md R53). `length` is the total length in bytes (R50); `cycles` is carried and read by no rule
(70_reset_and_hazards.md R214). -/
structure Descriptor where
  mnemonic : Mnemonic
  length : Nat
  cycles : Option Nat
  mode : Mode
deriving DecidableEq, Repr

/-- An opcode table: rows of opcode byte and descriptor; a byte without a row is absent (30_encoding.md R56). -/
abbrev OpTable := List (Byte × Descriptor)

/-- The instructions of `OPTAB_DEFAULT`, one constructor per row (30_encoding.md R58). `d8` is the one operand byte of format F2 and
`d16` the two operand bytes of format F3 read little-endian (R51, R52). -/
inductive Instr where
  | brk
  | adcIndirectX (d8 : Byte)
  | adcZeroPage (d8 : Byte)
  | adcImmediate (d8 : Byte)
  | adcAbsolute (d16 : Addr)
  | adcIndirectY (d8 : Byte)
  | adcZeroPageX (d8 : Byte)
  | adcAbsoluteY (d16 : Addr)
  | adcAbsoluteX (d16 : Addr)
  | staIndirectX (d8 : Byte)
  | staZeroPage (d8 : Byte)
  | staAbsolute (d16 : Addr)
  | staIndirectY (d8 : Byte)
  | staZeroPageX (d8 : Byte)
  | staAbsoluteY (d16 : Addr)
  | staAbsoluteX (d16 : Addr)
  | ldaIndirectX (d8 : Byte)
  | ldaZeroPage (d8 : Byte)
  | ldaImmediate (d8 : Byte)
  | tax
  | ldaAbsolute (d16 : Addr)
  | ldaIndirectY (d8 : Byte)
  | ldaZeroPageX (d8 : Byte)
  | ldaAbsoluteY (d16 : Addr)
  | ldaAbsoluteX (d16 : Addr)
  | inx
deriving DecidableEq, Repr

end Sys2Proof
end

