-- ==== Sys2Proof/Config.lean ====
section
/-! DEFINITION. Config.lean: the implementation parameters of 00_scope.md R7, with the alternative each of the spec's decisions set
aside (93_implementation_defined.md U1 to U6). The values this model runs with are `Machine.chosen` (Machine/Parameters.lean). -/

namespace Sys2Proof

/-- `WORD_WRAP` (U1, decision D4): a word access at 0xFFFF wraps to address 0, or is rejected. -/
inductive WordWrap where
  | wrap
  | reject
deriving DecidableEq, Repr

/-- `INDY_POLICY` (U2, decision D5): Indirect_Y dereferences the pointer and then adds Y, or (the observed baseline) adds Y to the
pointer before dereferencing. -/
inductive IndyPolicy where
  | dereferenceThenAdd
  | addThenDereference
deriving DecidableEq, Repr

/-- `ZN_SOURCE` (U3, decision D7): UpdateZN is given the value just produced, or (the observed baseline) always the accumulator. -/
inductive ZnSource where
  | produced
  | accumulator
deriving DecidableEq, Repr

/-- `ADC_OVERFLOW` (U4, decision D8): AddWithCarry computes Overflow, or (the observed baseline) leaves it unchanged. -/
inductive AdcOverflow where
  | computed
  | unchanged
deriving DecidableEq, Repr

/-- The parameters of a machine (00_scope.md R7, 10_state.md R26). They are fixed for the life of a CPU instance and are not state. -/
structure Config where
  /-- `OPTAB`, the opcode table (30_encoding.md R56). -/
  optab : OpTable
  /-- `RESET_FLAGS`, the flag pattern `reset()` restores; the spec leaves it open (D10, U6). -/
  resetFlags : Byte
  /-- `RESET_CLEARS_Y` (D9, U5). -/
  resetClearsY : Bool
  wordWrap : WordWrap
  indyPolicy : IndyPolicy
  znSource : ZnSource
  adcOverflow : AdcOverflow
deriving DecidableEq, Repr

end Sys2Proof
end

