-- ==== Sys2Proof/Decode.lean ====
section
/-! DEFINITION. Decode.lean: byte-order helpers, mode tags, the default opcode table, the decoder, and the encoder. -/

namespace Sys2Proof

/-! ## Bytes and words (00_scope.md R8) -/

/-- `zext_16`. -/
def zext16 (b : Byte) : Addr := b.setWidth 16

/-- `{hi, lo}`, that is hi * 256 + lo. -/
def pair (hi lo : Byte) : Addr := hi ++ lo

/-- `w[7:0]`. -/
def lowByte (w : Addr) : Byte := w.extractLsb' 0 8

/-- `w[15:8]`. -/
def highByte (w : Addr) : Byte := w.extractLsb' 8 8

/-! ## Mode tags (30_encoding.md R54) -/

/-- The 4-bit tag of a mode (R54). DESIGN CHOICE of the spec (D2), log 20. -/
def Mode.tag : Mode → BitVec 4
  | .immediate => 0
  | .zeroPage => 1
  | .zeroPageX => 2
  | .zeroPageY => 3
  | .absolute => 4
  | .absoluteX => 5
  | .absoluteY => 6
  | .indirectX => 7
  | .indirectY => 8
  | .implied => 9

/-- The mode of a 4-bit tag; codes 10 to 15 are unused (R54). -/
def Mode.ofTag (t : BitVec 4) : Option Mode :=
  match t.toNat with
  | 0 => some .immediate
  | 1 => some .zeroPage
  | 2 => some .zeroPageX
  | 3 => some .zeroPageY
  | 4 => some .absolute
  | 5 => some .absoluteX
  | 6 => some .absoluteY
  | 7 => some .indirectX
  | 8 => some .indirectY
  | 9 => some .implied
  | _ => none

/-- The number of operand bytes of a mode (R54, third column). -/
def Mode.operandBytes : Mode → Nat
  | .immediate | .zeroPage | .zeroPageX | .zeroPageY | .indirectX | .indirectY => 1
  | .absolute | .absoluteX | .absoluteY => 2
  | .implied => 0

/-! ## The opcode table -/

/-- The descriptor an opcode table gives a byte, or none where the byte is absent (R56). The key is the byte alone (R63). -/
def OpTable.find : OpTable → Byte → Option Descriptor
  | [], _ => none
  | (k, d) :: rest, b => if k = b then some d else OpTable.find rest b

/-- One row of `OPTAB_DEFAULT`; its `cycles` field has no value (R58). -/
def tableRow (opcode : Byte) (mnemonic : Mnemonic) (length : Nat) (mode : Mode) : Byte × Descriptor :=
  (opcode, ⟨mnemonic, length, none, mode⟩)

/-- The eight AddWithCarry rows of R58. PRESUMED: every byte is the spec's from general knowledge (G2), log 2. -/
def adcRows : OpTable :=
  [tableRow 0x61 .addWithCarry 2 .indirectX, tableRow 0x65 .addWithCarry 2 .zeroPage,
   tableRow 0x69 .addWithCarry 2 .immediate, tableRow 0x6D .addWithCarry 3 .absolute,
   tableRow 0x71 .addWithCarry 2 .indirectY, tableRow 0x75 .addWithCarry 2 .zeroPageX,
   tableRow 0x79 .addWithCarry 3 .absoluteY, tableRow 0x7D .addWithCarry 3 .absoluteX]

/-- The seven StoreAccumulator rows of R58. PRESUMED but for 0x95, which the source shows (R57), log 2. -/
def staRows : OpTable :=
  [tableRow 0x81 .storeAccumulator 2 .indirectX, tableRow 0x85 .storeAccumulator 2 .zeroPage,
   tableRow 0x8D .storeAccumulator 3 .absolute, tableRow 0x91 .storeAccumulator 2 .indirectY,
   tableRow 0x95 .storeAccumulator 2 .zeroPageX, tableRow 0x99 .storeAccumulator 3 .absoluteY,
   tableRow 0x9D .storeAccumulator 3 .absoluteX]

/-- The eight LoadAccumulator rows of R58. PRESUMED but for 0xA9, which the source shows (R57), log 2. -/
def ldaRows : OpTable :=
  [tableRow 0xA1 .loadAccumulator 2 .indirectX, tableRow 0xA5 .loadAccumulator 2 .zeroPage,
   tableRow 0xA9 .loadAccumulator 2 .immediate, tableRow 0xAD .loadAccumulator 3 .absolute,
   tableRow 0xB1 .loadAccumulator 2 .indirectY, tableRow 0xB5 .loadAccumulator 2 .zeroPageX,
   tableRow 0xB9 .loadAccumulator 3 .absoluteY, tableRow 0xBD .loadAccumulator 3 .absoluteX]

/-- The three rows of mode Implied, all shown by the source (R57). -/
def impliedRows : OpTable :=
  [tableRow 0x00 .brk 1 .implied, tableRow 0xAA .transferAccumulatorToX 1 .implied, tableRow 0xE8 .incrementX 1 .implied]

/-- `OPTAB_DEFAULT` (R58): 26 rows. -/
def opcodeTable : OpTable := impliedRows ++ (ldaRows ++ (staRows ++ adcRows))

/-! ## Decoding -/

/-- The instruction a descriptor names, its operand assembled from byte 1 and byte 2 (R51, R52). A pair of identity and mode that has
no row in `OPTAB_DEFAULT` has no constructor. -/
def instrOf (mnemonic : Mnemonic) (mode : Mode) (b1 b2 : Byte) : Option Instr :=
  match mnemonic, mode with
  | .loadAccumulator, .immediate => some (.ldaImmediate b1)
  | .loadAccumulator, .zeroPage => some (.ldaZeroPage b1)
  | .loadAccumulator, .zeroPageX => some (.ldaZeroPageX b1)
  | .loadAccumulator, .absolute => some (.ldaAbsolute (pair b2 b1))
  | .loadAccumulator, .absoluteX => some (.ldaAbsoluteX (pair b2 b1))
  | .loadAccumulator, .absoluteY => some (.ldaAbsoluteY (pair b2 b1))
  | .loadAccumulator, .indirectX => some (.ldaIndirectX b1)
  | .loadAccumulator, .indirectY => some (.ldaIndirectY b1)
  | .storeAccumulator, .zeroPage => some (.staZeroPage b1)
  | .storeAccumulator, .zeroPageX => some (.staZeroPageX b1)
  | .storeAccumulator, .absolute => some (.staAbsolute (pair b2 b1))
  | .storeAccumulator, .absoluteX => some (.staAbsoluteX (pair b2 b1))
  | .storeAccumulator, .absoluteY => some (.staAbsoluteY (pair b2 b1))
  | .storeAccumulator, .indirectX => some (.staIndirectX b1)
  | .storeAccumulator, .indirectY => some (.staIndirectY b1)
  | .addWithCarry, .immediate => some (.adcImmediate b1)
  | .addWithCarry, .zeroPage => some (.adcZeroPage b1)
  | .addWithCarry, .zeroPageX => some (.adcZeroPageX b1)
  | .addWithCarry, .absolute => some (.adcAbsolute (pair b2 b1))
  | .addWithCarry, .absoluteX => some (.adcAbsoluteX (pair b2 b1))
  | .addWithCarry, .absoluteY => some (.adcAbsoluteY (pair b2 b1))
  | .addWithCarry, .indirectX => some (.adcIndirectX b1)
  | .addWithCarry, .indirectY => some (.adcIndirectY b1)
  | .transferAccumulatorToX, .implied => some .tax
  | .incrementX, .implied => some .inx
  | .brk, .implied => some .brk
  | _, _ => none

/-- The instruction at an opcode byte and the two bytes after it; none where the opcode byte is absent from the table (R59). A decoder
tells the length from the opcode byte alone (R60), so operand bytes past the length are ignored. -/
def decodeBytes (b0 b1 b2 : Byte) : Option Instr :=
  match opcodeTable.find b0 with
  | some d => instrOf d.mnemonic d.mode b1 b2
  | none => none

/-- Why a list of bytes does not decode. -/
inductive DecodeError where
  /-- There is no opcode byte. -/
  | empty
  /-- The opcode byte is absent from the table (R59). -/
  | unsupportedOpcode (byte : Byte)
  /-- The list ends before the operand bytes the opcode byte calls for. -/
  | truncated (byte : Byte)
deriving DecidableEq, Repr

/-- The identity of an instruction (30_encoding.md R58). -/
def Instr.mnemonic : Instr → Mnemonic
  | .brk => .brk
  | .tax => .transferAccumulatorToX
  | .inx => .incrementX
  | .ldaImmediate _ | .ldaZeroPage _ | .ldaZeroPageX _ | .ldaAbsolute _ | .ldaAbsoluteX _ | .ldaAbsoluteY _ | .ldaIndirectX _
  | .ldaIndirectY _ => .loadAccumulator
  | .staZeroPage _ | .staZeroPageX _ | .staAbsolute _ | .staAbsoluteX _ | .staAbsoluteY _ | .staIndirectX _
  | .staIndirectY _ => .storeAccumulator
  | .adcImmediate _ | .adcZeroPage _ | .adcZeroPageX _ | .adcAbsolute _ | .adcAbsoluteX _ | .adcAbsoluteY _ | .adcIndirectX _
  | .adcIndirectY _ => .addWithCarry

/-- The addressing mode of an instruction (30_encoding.md R58). -/
def Instr.mode : Instr → Mode
  | .brk | .tax | .inx => .implied
  | .ldaImmediate _ | .adcImmediate _ => .immediate
  | .ldaZeroPage _ | .staZeroPage _ | .adcZeroPage _ => .zeroPage
  | .ldaZeroPageX _ | .staZeroPageX _ | .adcZeroPageX _ => .zeroPageX
  | .ldaAbsolute _ | .staAbsolute _ | .adcAbsolute _ => .absolute
  | .ldaAbsoluteX _ | .staAbsoluteX _ | .adcAbsoluteX _ => .absoluteX
  | .ldaAbsoluteY _ | .staAbsoluteY _ | .adcAbsoluteY _ => .absoluteY
  | .ldaIndirectX _ | .staIndirectX _ | .adcIndirectX _ => .indirectX
  | .ldaIndirectY _ | .staIndirectY _ | .adcIndirectY _ => .indirectY

/-- The total length in bytes (R50): one opcode byte and the operand bytes of the mode. -/
def Instr.length (i : Instr) : Nat := 1 + i.mode.operandBytes

/-- The descriptor of an instruction (R53); no cycle count is given (R58). -/
def Instr.descriptor (i : Instr) : Descriptor := ⟨i.mnemonic, i.length, none, i.mode⟩

/-- The decoder: the instruction at the front of a list of bytes in ascending address order, and the bytes after it. Total on every
list; a list that holds no instruction is rejected by name. -/
def decode : List Byte → Except DecodeError (Instr × List Byte)
  | [] => .error .empty
  | b0 :: rest =>
    match decodeBytes b0 (rest.getD 0 0) (rest.getD 1 0) with
    | none => .error (.unsupportedOpcode b0)
    | some i => if rest.length < i.length - 1 then .error (.truncated b0) else .ok (i, rest.drop (i.length - 1))

/-! ## Encoding -/

/-- The opcode byte of an instruction (R57, R58). -/
def Instr.opcode : Instr → Byte
  | .brk => 0x00
  | .adcIndirectX _ => 0x61
  | .adcZeroPage _ => 0x65
  | .adcImmediate _ => 0x69
  | .adcAbsolute _ => 0x6D
  | .adcIndirectY _ => 0x71
  | .adcZeroPageX _ => 0x75
  | .adcAbsoluteY _ => 0x79
  | .adcAbsoluteX _ => 0x7D
  | .staIndirectX _ => 0x81
  | .staZeroPage _ => 0x85
  | .staAbsolute _ => 0x8D
  | .staIndirectY _ => 0x91
  | .staZeroPageX _ => 0x95
  | .staAbsoluteY _ => 0x99
  | .staAbsoluteX _ => 0x9D
  | .ldaIndirectX _ => 0xA1
  | .ldaZeroPage _ => 0xA5
  | .ldaImmediate _ => 0xA9
  | .tax => 0xAA
  | .ldaAbsolute _ => 0xAD
  | .ldaIndirectY _ => 0xB1
  | .ldaZeroPageX _ => 0xB5
  | .ldaAbsoluteY _ => 0xB9
  | .ldaAbsoluteX _ => 0xBD
  | .inx => 0xE8

/-- The operand bytes of an instruction in ascending address order: none for F1, d8 for F2, the low and then the high byte of d16 for
F3 (R51). -/
def Instr.operand : Instr → List Byte
  | .brk | .tax | .inx => []
  | .ldaImmediate d8 | .ldaZeroPage d8 | .ldaZeroPageX d8 | .ldaIndirectX d8 | .ldaIndirectY d8
  | .staZeroPage d8 | .staZeroPageX d8 | .staIndirectX d8 | .staIndirectY d8
  | .adcImmediate d8 | .adcZeroPage d8 | .adcZeroPageX d8 | .adcIndirectX d8 | .adcIndirectY d8 => [d8]
  | .ldaAbsolute d16 | .ldaAbsoluteX d16 | .ldaAbsoluteY d16 | .staAbsolute d16 | .staAbsoluteX d16 | .staAbsoluteY d16
  | .adcAbsolute d16 | .adcAbsoluteX d16 | .adcAbsoluteY d16 => [lowByte d16, highByte d16]

/-- The encoder: the bytes of an instruction in ascending address order (R51). -/
def encode (i : Instr) : List Byte := i.opcode :: i.operand

/-! ## Assembler text (30_encoding.md R61; notation of the spec only, D18; it carries no semantics) -/

/-- A hexadecimal digit. -/
def hexDigit (n : Nat) : Char := if n < 10 then Char.ofNat (48 + n) else Char.ofNat (55 + n)

/-- Two hexadecimal digits. -/
def hexByte (b : Byte) : List Char := [hexDigit (b.toNat / 16), hexDigit (b.toNat % 16)]

/-- The three-letter name of an identity (R61). -/
def Mnemonic.letters : Mnemonic → List Char
  | .loadAccumulator => ['L', 'D', 'A']
  | .storeAccumulator => ['S', 'T', 'A']
  | .addWithCarry => ['A', 'D', 'C']
  | .transferAccumulatorToX => ['T', 'A', 'X']
  | .incrementX => ['I', 'N', 'X']
  | .brk => ['B', 'R', 'K']
  | .other _ => ['?', '?', '?']

/-- The operand of an assembler line in each mode (R61): two digits for one byte, four for two. -/
def operandText (mode : Mode) (operand : List Byte) : List Char :=
  match mode, operand with
  | .immediate, [d8] => [' ', '#', '$'] ++ hexByte d8
  | .zeroPage, [d8] => [' ', '$'] ++ hexByte d8
  | .zeroPageX, [d8] => [' ', '$'] ++ hexByte d8 ++ [',', 'X']
  | .zeroPageY, [d8] => [' ', '$'] ++ hexByte d8 ++ [',', 'Y']
  | .absolute, [lo, hi] => [' ', '$'] ++ hexByte hi ++ hexByte lo
  | .absoluteX, [lo, hi] => [' ', '$'] ++ hexByte hi ++ hexByte lo ++ [',', 'X']
  | .absoluteY, [lo, hi] => [' ', '$'] ++ hexByte hi ++ hexByte lo ++ [',', 'Y']
  | .indirectX, [d8] => [' ', '(', '$'] ++ hexByte d8 ++ [',', 'X', ')']
  | .indirectY, [d8] => [' ', '(', '$'] ++ hexByte d8 ++ [')', ',', 'Y']
  | _, _ => []

/-- The assembler line of an instruction (R61). -/
def Instr.text (i : Instr) : List Char := i.mnemonic.letters ++ operandText i.mode i.operand

/-! ## Words of the opcode table -/

/-- The bytes of an instruction word as spec/opcode_table.json numbers its bits: byte 0 is bits 7..0, byte 1 bits 15..8, byte 2 bits
23..16, and every bit above `nbits` is 0. Three bytes, the longest instruction. -/
def tableBytes (nbits w : Nat) : List Byte :=
  [BitVec.ofNat 8 (w % 2 ^ nbits), BitVec.ofNat 8 (w % 2 ^ nbits / 256), BitVec.ofNat 8 (w % 2 ^ nbits / 65536)]

/-- The instruction the decoder reads from an instruction word of the opcode table. -/
def decodeTableWord (nbits w : Nat) : Option Instr :=
  match decode (tableBytes nbits w) with
  | .ok (i, _) => some i
  | .error _ => none

end Sys2Proof
end

