-- ==== Sys2Proof/Machine/Parameters.lean ====
section
/-! DEFINITION. Machine/Parameters.lean: the parameter values this model runs with, and the two fixed addresses. -/

namespace Sys2Proof.Machine

/-- The values 00_scope.md R7 takes. `resetFlags` is open in the spec; 0x24 is its suggested default (PRESUMED, log 1). `optab` is
OPTAB_DEFAULT (PRESUMED, log 2). The others are the spec's decisions D4, D5, D7, D8, D9 (log 3 to log 8). -/
def chosen : Config where
  optab := opcodeTable
  resetFlags := 0x24
  resetClearsY := true
  wordWrap := .wrap
  indyPolicy := .dereferenceThenAdd
  znSource := .produced
  adcOverflow := .computed

/-- `LOAD_ORIGIN` (00_scope.md R6). -/
def loadOrigin : Addr := 0x8000

/-- `RESET_VECTOR` (00_scope.md R6): low byte here, high byte at the next address. -/
def resetVector : Addr := 0xFFFC

end Sys2Proof.Machine
end

