-- ==== Sys2Proof/Machine/State.lean ====
section
/-! DEFINITION. Machine/State.lean: everything the spec gives the machine (10_state.md), as plain data; faults and refusals; the state
after reset. -/

namespace Sys2Proof.Machine

/-- The 65,536-byte memory (10_state.md R24) as a sparse list of (address, byte) in canonical form (`Memory.wf`, Machine/Ops.lean). -/
abbrev Memory := List Host.Cell

/-- Which fault, and its payload (60_exceptions.md R170). -/
inductive FaultKind where
  /-- R171: the opcode byte has no descriptor, or its descriptor names no handler. Payload: the byte. -/
  | unsupportedOpcode (byte : Byte)
  /-- R172: the resolver was given a mode that has no effective address. Payload: the 4-bit mode tag (R54). -/
  | unsupportedAddressingMode (tag : BitVec 4)
  /-- 93_implementation_defined.md U1: a word access at 0xFFFF under `WordWrap.reject`. Payload: the address. -/
  | wordAccessRejected (addr : Addr)
deriving DecidableEq, Repr

/-- The engine's phase (10_state.md R25, 42_execution_engine.md R110), each with the hidden state it holds: the fetched opcode byte, its
descriptor, the program counter captured before dispatch, the fault of the run. Between runs there is no run in progress (R27); that is
held as `fetch`, since every run starts in Fetch. DESIGN CHOICE, log 13. -/
inductive Phase where
  | fetch
  | decode (opcode : Byte)
  | execute (opcode : Byte) (descriptor : Descriptor) (pcBefore : Addr)
  | halted
  | faulted (kind : FaultKind)
deriving DecidableEq, Repr

/-- The state of one CPU instance (10_state.md R10 to R14, R24, R25). -/
structure State where
  /-- accumulator A (R10) -/
  a : Byte
  /-- index register X (R11) -/
  x : Byte
  /-- index register Y (R12) -/
  y : Byte
  /-- program counter (R13) -/
  pc : Addr
  /-- status byte P; bit i is the i-th flag of R14 -/
  p : Byte
  /-- memory (R24) -/
  mem : Memory
  /-- engine state (R25) -/
  phase : Phase
deriving DecidableEq, Repr

/-- Why the machine stopped with a fault, with the state it leaves (42_execution_engine.md R116 `fault(kind, state)`; 60_exceptions.md
R173, R174). Every constructor is safe: the run ends as the spec says it does. -/
inductive Fault where
  /-- Raised by the engine at Decode (R112, R171). Safe: the spec names this fault. -/
  | unsupportedOpcode (byte : Byte) (final : State)
  /-- Raised by the resolver, called by LoadAccumulator, StoreAccumulator or AddWithCarry, for Implied (R100, R172). No row of the
  default table reaches it. Safe: the spec names this fault. -/
  | unsupportedAddressingMode (tag : BitVec 4) (final : State)
  /-- Raised by word access at 0xFFFF in a configuration with `WordWrap.reject` (U1), which this model does not run with. Safe. -/
  | wordAccessRejected (addr : Addr) (final : State)
deriving DecidableEq, Repr

/-- Why the model gives something no meaning. -/
inductive Refusal where
  /-- Raised by an arm of `exec` for an instruction without a meaning. No arm does. Safe. -/
  | notModelled (mnemonic : String)
  /-- Raised by the table-driven engine for an opcode table that is not well formed (30_encoding.md R55: "refused by the model, not given
  a meaning"). Safe. -/
  | illFormedTable
  /-- Raised by the host call `load` for an image of more than 0x8000 bytes (70_reset_and_hazards.md R199). Safe. -/
  | imageTooLong
deriving DecidableEq, Repr

/-- The machine after construction and one `reset()` (70_reset_and_hazards.md R190, R192): registers zero, pc the word at 0xFFFC of zeroed
memory, memory zeroed. P is RESET_FLAGS, which the spec leaves open and for which it suggests 0x24. PRESUMED, log 1. -/
def State.reset : State where
  a := 0x00
  x := 0x00
  y := 0x00
  pc := 0x0000
  p := 0x24
  mem := []
  phase := .fetch

end Sys2Proof.Machine
end

