-- ==== Sys2Proof/WellFormed.lean ====
section
/-! DEFINITION. WellFormed.lean: the checks of the spec on what the machine is given: opcode tables, program images, instructions. -/

namespace Sys2Proof

/-- A descriptor's length is one opcode byte and the operand bytes of its mode (30_encoding.md R55). -/
def Descriptor.wf (d : Descriptor) : Bool := d.length == 1 + d.mode.operandBytes

/-- Every row of the table meets R55. -/
def OpTable.rowsWf : OpTable → Bool
  | [] => true
  | (_, d) :: rest => d.wf && OpTable.rowsWf rest

/-- No opcode byte has two rows: a table is a partial function of the byte (R56). DESIGN CHOICE, log 11. -/
def OpTable.keysDistinct : OpTable → Bool
  | [] => true
  | (k, _) :: rest => (OpTable.find rest k).isNone && OpTable.keysDistinct rest

/-- A table the engine accepts (R55, R56). A row that names an identity without a handler is no defect (90_conflicts.md C11). -/
def OpTable.wf (t : OpTable) : Bool := t.rowsWf && t.keysDistinct

/-- A program image `load` accepts: at most 0x8000 bytes (70_reset_and_hazards.md R199). -/
def imageWf (image : List Byte) : Bool := decide (image.length ≤ 0x8000)

/-- An instruction is well formed when its descriptor is and its encoding has that length. Every value of `Instr` is: operand bytes are
unconstrained (R59), so the types already rule every ill-formed instruction out. -/
def Instr.wf (i : Instr) : Bool := i.descriptor.wf && (encode i).length == i.length

end Sys2Proof
end

