-- ==== Sys2Proof/Machine/Ops.lean ====
section
/-! DEFINITION. Machine/Ops.lean: the named operations over memory and registers, and raising a fault. -/

namespace Sys2Proof.Machine

/-! ## Memory (20_memory.md) -/

/-- What an address reads as while nothing has been written to it: construction zeroes memory (70_reset_and_hazards.md R190). -/
def Memory.unlisted : Byte := 0x00

/-- The canonical form from address `lo` on: addresses strictly rising and below 65536, no entry equal to `unlisted`. -/
def Memory.wfFrom : Nat → Memory → Bool
  | _, [] => true
  | lo, (k, v) :: rest => decide (lo ≤ k) && decide (k < 65536) && decide (v ≠ Memory.unlisted) && Memory.wfFrom (k + 1) rest

/-- The canonical form of memory: equal memories are equal lists. -/
def Memory.wf (m : Memory) : Bool := Memory.wfFrom 0 m

/-- The byte at a key. -/
def Memory.get : Memory → Nat → Byte
  | [], _ => Memory.unlisted
  | (k', v) :: rest, k => if k' = k then v else Memory.get rest k

/-- Prepend an entry, unless it says what an unlisted address says anyway. -/
def Memory.consCell (k : Nat) (v : Byte) (rest : Memory) : Memory :=
  if v = Memory.unlisted then rest else (k, v) :: rest

/-- Store a byte at a key, keeping the canonical form. -/
def Memory.put : Memory → Nat → Byte → Memory
  | [], k, v => Memory.consCell k v []
  | (k', v') :: rest, k, v =>
    if k < k' then Memory.consCell k v ((k', v') :: rest)
    else if k = k' then Memory.consCell k v rest
    else (k', v') :: Memory.put rest k v

/-- `MemRead(addr, 1)` (R31). -/
def Memory.readByte (m : Memory) (addr : Addr) : Byte := m.get addr.toNat

/-- `MemWrite(addr, 1, v)` (R33). -/
def Memory.writeByte (m : Memory) (addr : Addr) (v : Byte) : Memory := m.put addr.toNat v

/-- `MemRead(addr, 2)` (R32): little-endian, the second byte at addr + 1 modulo 65536 (D4, log 3). -/
def Memory.readWord (m : Memory) (addr : Addr) : Addr := pair (m.readByte (addr + 1)) (m.readByte addr)

/-- `MemWrite(addr, 2, v)` (R34). -/
def Memory.writeWord (m : Memory) (addr : Addr) (v : Addr) : Memory :=
  (m.writeByte addr (lowByte v)).writeByte (addr + 1) (highByte v)

/-- `ZpReadWord(p)` (R35): both bytes in page 0. -/
def Memory.zpReadWord (m : Memory) (ptr : Byte) : Addr := pair (m.readByte (zext16 (ptr + 1))) (m.readByte (zext16 ptr))

/-- Whether a word access at `addr` is rejected under a `WORD_WRAP` policy (93_implementation_defined.md U1). -/
def wordRejected (policy : WordWrap) (addr : Addr) : Bool :=
  match policy with
  | .wrap => false
  | .reject => addr == 0xFFFF

/-- `MemRead(addr, 2)` under either policy of U1. -/
def Memory.readWordUnder (policy : WordWrap) (m : Memory) (addr : Addr) : Except FaultKind Addr :=
  if wordRejected policy addr then .error (.wordAccessRejected addr) else .ok (m.readWord addr)

/-- Store bytes at consecutive addresses from `addr` on, with 16-bit wrap. -/
def Memory.placeBytes : Memory → Addr → List Byte → Memory
  | m, _, [] => m
  | m, addr, b :: rest => Memory.placeBytes (m.writeByte addr b) (addr + 1) rest

/-! ## Registers -/

/-- `x[A] <- v`. -/
def State.setA (s : State) (v : Byte) : State := { s with a := v }
/-- `x[X] <- v`. -/
def State.setX (s : State) (v : Byte) : State := { s with x := v }
/-- `x[Y] <- v`. -/
def State.setY (s : State) (v : Byte) : State := { s with y := v }
/-- `pc <- v`. -/
def State.setPc (s : State) (v : Addr) : State := { s with pc := v }
/-- `P <- v`. -/
def State.setP (s : State) (v : Byte) : State := { s with p := v }
/-- Replace memory. -/
def State.setMem (s : State) (m : Memory) : State := { s with mem := m }
/-- `phase <- v`. -/
def State.setPhase (s : State) (v : Phase) : State := { s with phase := v }

/-! ## Outcomes and faults -/

/-- The outcomes of one step of this machine. -/
abbrev Result := Host.Outcome State Fault Refusal

/-- The fault of a kind that leaves the state `final`. -/
def Fault.ofKind (k : FaultKind) (final : State) : Fault :=
  match k with
  | .unsupportedOpcode b => .unsupportedOpcode b final
  | .unsupportedAddressingMode t => .unsupportedAddressingMode t final
  | .wordAccessRejected a => .wordAccessRejected a final

/-- `raise F(info)` (60_exceptions.md R173, R174): the run ends with the fault; nothing is saved, no vector is read, no register, flag
or memory cell changes; the phase records the fault for the rest of the run (R176). -/
def raiseFault (k : FaultKind) (s : State) : Result := .fault (Fault.ofKind k (s.setPhase (.faulted k)))

/-- Continue from a next state; a fault or refusal ends the sequence. -/
def andThen (o : Result) (f : State → Result) : Result :=
  match o with
  | .next t => f t
  | .fault e => .fault e
  | .refused r => .refused r

/-- Whether the engine has halted (42_execution_engine.md R115). -/
def Phase.isHalted : Phase → Bool
  | .halted => true
  | .fetch => false
  | .decode _ => false
  | .execute _ _ _ => false
  | .faulted _ => false

/-- A new run starts in Fetch at the current pc and forgets how the last run ended (10_state.md R25, 60_exceptions.md R176,
70_reset_and_hazards.md R193). There is no return from a fault (R176); this is the only way on after one. -/
def State.startRun (s : State) : State := s.setPhase .fetch

/-! ## Fetching -/

/-- Fetch (42_execution_engine.md R111): the opcode byte. -/
def State.fetchOpcode (s : State) : Byte := s.mem.readByte s.pc

/-- Fetch (R111): the program counter advances by one, with wrap. -/
def State.afterFetch (s : State) : State := s.setPc (s.pc + 1)

/-- The three bytes an instruction at the program counter can occupy, in ascending address order with 16-bit wrap (30_encoding.md R50,
R52). -/
def State.instrBytes (s : State) : List Byte := [s.mem.readByte s.pc, s.mem.readByte (s.pc + 1), s.mem.readByte (s.pc + 2)]

end Sys2Proof.Machine
end

