-- ==== Sys2Proof/Machine/Flags.lean ====
section
/-! DEFINITION. Machine/Flags.lean: the flag-computation unit (40_flag_unit.md). -/

namespace Sys2Proof.Machine

/-- The eight flags of the status byte (10_state.md R14). -/
inductive Flag where
  | carry
  | zero
  | interruptDisable
  | decimalMode
  | brk
  | break2
  | overflow
  | negative
deriving DecidableEq, Repr

/-- The bit of a flag in P, least significant first in the source's listed order (R14). DESIGN CHOICE of the spec (D3), log 17. -/
def Flag.index : Flag → BitVec 3
  | .carry => 0
  | .zero => 1
  | .interruptDisable => 2
  | .decimalMode => 3
  | .brk => 4
  | .break2 => 5
  | .overflow => 6
  | .negative => 7

/-- FlagInsert (R71): `p | (1 << f)`. -/
def flagInsert (p : Byte) (f : BitVec 3) : Byte := p ||| (1#8 <<< f.toNat)

/-- FlagRemove (R72): `p & ~(1 << f)`. -/
def flagRemove (p : Byte) (f : BitVec 3) : Byte := p &&& ~~~(1#8 <<< f.toNat)

/-- FlagTest (R73): `p[f]`. -/
def flagTest (p : Byte) (f : BitVec 3) : Bool := p.getLsbD f.toNat

/-- `P.f`: the flag of a status byte (00_scope.md R8). -/
def flagOf (p : Byte) (f : Flag) : Bool := flagTest p f.index

/-- `p.f <- b`, leaving the other seven bits (00_scope.md R8). -/
def setFlag (p : Byte) (f : Flag) (b : Bool) : Byte := if b then flagInsert p f.index else flagRemove p f.index

/-- UpdateZN (R74): Zero iff the value is 0, Negative its bit 7. -/
def updateZN (p val : Byte) : Byte := setFlag (setFlag p .zero (val == 0x00)) .negative (val.getLsbD 7)

/-- The 9-bit sum (R76). -/
def sum9 (a m : Byte) (cin : Bool) : BitVec 9 := a.setWidth 9 + m.setWidth 9 + (BitVec.ofBool cin).setWidth 9

/-- The sum truncated to 8 bits (R76). -/
def addResult (a m : Byte) (cin : Bool) : Byte := (sum9 a m cin).setWidth 8

/-- Carry out (R77): the sum exceeds 255. -/
def carryOut (a m : Byte) (cin : Bool) : Bool := decide ((sum9 a m cin).toNat > 255)

/-- Signed overflow (R78, first form): the operands share a sign that differs from the result's. -/
def signedOverflow (a m : Byte) (cin : Bool) : Bool :=
  (a.getLsbD 7 == m.getLsbD 7) && (addResult a m cin).getLsbD 7 != a.getLsbD 7

/-- The carry-in of an addition: FlagTest of Carry (R73, R76). -/
def carryIn (p : Byte) : Bool := flagOf p .carry

/-- Overflow after an addition, under either policy of 93_implementation_defined.md U4 (the chosen one computes it: D8, log 7). -/
def overflowOut (policy : AdcOverflow) (p a m : Byte) : Bool :=
  match policy with
  | .computed => signedOverflow a m (carryIn p)
  | .unchanged => flagOf p .overflow

/-- The status byte after AddFlags (R80): C, V, Z and N are written; DecimalMode is not read (D11, log 9). -/
def addFlags (policy : AdcOverflow) (p a m : Byte) : Byte :=
  updateZN
    (setFlag (setFlag p .carry (carryOut a m (carryIn p))) .overflow (overflowOut policy p a m))
    (addResult a m (carryIn p))

/-! ## The ported unit (00_scope.md R5, 40_flag_unit.md R70) -/

/-- The inputs of the FCU. -/
structure FcuIn where
  fop : BitVec 3
  pIn : Byte
  val : Byte
  a : Byte
  m : Byte
  fsel : BitVec 3
deriving DecidableEq, Repr

/-- The outputs of the FCU. -/
structure FcuOut where
  r : Byte
  pOut : Byte
  ftest : Bool
deriving DecidableEq, Repr

/-- The FCU as a function of its ports (R5, R70, R81): `fop` 1 is ZN, 2 ADD, 3 INS, 4 REM; 0 and 5 to 7 hold P. Log 20. -/
def fcu (i : FcuIn) : FcuOut where
  r := match i.fop.toNat with
    | 2 => addResult i.a i.m (carryIn i.pIn)
    | _ => i.val
  pOut := match i.fop.toNat with
    | 1 => updateZN i.pIn i.val
    | 2 => addFlags .computed i.pIn i.a i.m
    | 3 => flagInsert i.pIn i.fsel
    | 4 => flagRemove i.pIn i.fsel
    | _ => i.pIn
  ftest := flagTest i.pIn i.fsel

/-! ## Driving the unit from a handler -/

/-- The operand of UpdateZN for an instruction that produced `val`, in the state after its register write (R75; U3 for the other
policy; D7, log 6). -/
def znOperand (policy : ZnSource) (val : Byte) (s : State) : Byte :=
  match policy with
  | .produced => val
  | .accumulator => s.a

/-- UpdateZN as a handler drives it after producing `val` (R75, R82). -/
def State.updateZN (cfg : Config) (val : Byte) (s : State) : State := s.setP (Machine.updateZN s.p (znOperand cfg.znSource val s))

end Sys2Proof.Machine
end

