-- ==== Sys2Proof/Machine/Operands.lean ====
section
/-! DEFINITION. Machine/Operands.lean: the addressing-mode resolver (41_addressing_resolver.md): the address each operand form gives, and
the unit itself, which reads the operand bytes at its `pc` input. -/

namespace Sys2Proof.Machine

/-! ## The address of each operand form, from the operand's bytes -/

/-- Immediate (R91): the program counter, which is the address of byte 1. -/
def immediateAddr (pc : Addr) : Addr := pc

/-- ZeroPage (R92). -/
def zeroPageAddr (d8 : Byte) : Addr := zext16 d8

/-- ZeroPage_X and ZeroPage_Y (R93, R94): 8-bit addition, carry dropped. -/
def zeroPageIndexedAddr (d8 index : Byte) : Addr := zext16 (d8 + index)

/-- Absolute (R95). -/
def absoluteAddr (d16 : Addr) : Addr := d16

/-- Absolute_X and Absolute_Y (R96, R97): 16-bit addition of the unsigned index. -/
def absoluteIndexedAddr (d16 : Addr) (index : Byte) : Addr := d16 + zext16 index

/-- Indirect_X (R98). -/
def indirectXAddr (m : Memory) (base x : Byte) : Addr := m.zpReadWord (base + x)

/-- Indirect_Y (R99; U2 for the other policy): D5 and D6, log 4 and log 5. -/
def indirectYAddr (policy : IndyPolicy) (m : Memory) (ptr y : Byte) : Addr :=
  match policy with
  | .dereferenceThenAdd => m.zpReadWord ptr + zext16 y
  | .addThenDereference => m.zpReadWord (ptr + y)

/-! ## The unit -/

/-- `Resolve(mode)` (R90 to R100): a function of the mode, `pc`, X, Y and memory; `pc` is the address of byte 1. -/
def resolve (cfg : Config) (mode : Mode) (pc : Addr) (x y : Byte) (m : Memory) : Except FaultKind Addr :=
  match mode with
  | .immediate => .ok (immediateAddr pc)
  | .zeroPage => .ok (zeroPageAddr (m.readByte pc))
  | .zeroPageX => .ok (zeroPageIndexedAddr (m.readByte pc) x)
  | .zeroPageY => .ok (zeroPageIndexedAddr (m.readByte pc) y)
  | .absolute => (m.readWordUnder cfg.wordWrap pc).map absoluteAddr
  | .absoluteX => (m.readWordUnder cfg.wordWrap pc).map (absoluteIndexedAddr · x)
  | .absoluteY => (m.readWordUnder cfg.wordWrap pc).map (absoluteIndexedAddr · y)
  | .indirectX => .ok (indirectXAddr m (m.readByte pc) x)
  | .indirectY => .ok (indirectYAddr cfg.indyPolicy m (m.readByte pc) y)
  | .implied => .error (.unsupportedAddressingMode Mode.implied.tag)

/-- The resolver with a 4-bit `mode` port (00_scope.md R5): an unused code raises as Implied does (R101). -/
def resolveTag (cfg : Config) (tag : BitVec 4) (pc : Addr) (x y : Byte) (m : Memory) : Except FaultKind Addr :=
  match Mode.ofTag tag with
  | some mode => resolve cfg mode pc x y m
  | none => .error (.unsupportedAddressingMode tag)

/-- `Resolve(mode)` as a handler calls it (42_execution_engine.md R113). -/
def State.resolve (cfg : Config) (mode : Mode) (s : State) : Except FaultKind Addr :=
  Machine.resolve cfg mode s.pc s.x s.y s.mem

end Sys2Proof.Machine
end

