-- ==== Sys2Proof/Machine/Arithmetic.lean ====
section
/-! DEFINITION. Machine/Arithmetic.lean: AddWithCarry (44_arithmetic.md R140). -/

namespace Sys2Proof.Machine

/-- The effect of AddWithCarry on the byte `m` it read: the old A, `m` and the old Carry give the new A and C, V, Z, N (R140,
40_flag_unit.md R80). Z and N come from the new A under either policy of U3. -/
def addValue (cfg : Config) (m : Byte) (s : State) : State :=
  (s.setA (addResult s.a m (carryIn s.p))).setP (addFlags cfg.adcOverflow s.p s.a m)

/-- AddWithCarry from an effective address (R140). -/
def addFrom (cfg : Config) (ea : Addr) (s : State) : State := addValue cfg (s.mem.readByte ea) s

/-- The handler: resolve, then add; a fault of the resolver is raised before anything is written (R140). -/
def addWithCarry (cfg : Config) (mode : Mode) (s : State) : Result :=
  match s.resolve cfg mode with
  | .ok ea => .next (addFrom cfg ea s)
  | .error k => raiseFault k s

/-- 0x69: the operand value is d8 itself (30_encoding.md R52), which is the byte at `immediateAddr s.pc` (log 18). -/
def execAdcImmediate (d8 : Byte) (s : State) : Result := .next (addValue chosen d8 s)
/-- 0x65. -/
def execAdcZeroPage (d8 : Byte) (s : State) : Result := .next (addFrom chosen (zeroPageAddr d8) s)
/-- 0x75. -/
def execAdcZeroPageX (d8 : Byte) (s : State) : Result := .next (addFrom chosen (zeroPageIndexedAddr d8 s.x) s)
/-- 0x6D. -/
def execAdcAbsolute (d16 : Addr) (s : State) : Result := .next (addFrom chosen (absoluteAddr d16) s)
/-- 0x7D. -/
def execAdcAbsoluteX (d16 : Addr) (s : State) : Result := .next (addFrom chosen (absoluteIndexedAddr d16 s.x) s)
/-- 0x79. -/
def execAdcAbsoluteY (d16 : Addr) (s : State) : Result := .next (addFrom chosen (absoluteIndexedAddr d16 s.y) s)
/-- 0x61. -/
def execAdcIndirectX (d8 : Byte) (s : State) : Result := .next (addFrom chosen (indirectXAddr s.mem d8 s.x) s)
/-- 0x71. -/
def execAdcIndirectY (d8 : Byte) (s : State) : Result := .next (addFrom chosen (indirectYAddr chosen.indyPolicy s.mem d8 s.y) s)

end Sys2Proof.Machine
end

