-- ==== Sys2Proof/Machine/Load.lean ====
section
/-! DEFINITION. Machine/Load.lean: LoadAccumulator (43_load_store.md R130). -/

namespace Sys2Proof.Machine

/-- The effect of LoadAccumulator on the byte `v` it read: A := v, then Z and N from the new A (R130). -/
def loadValue (cfg : Config) (v : Byte) (s : State) : State := (s.setA v).updateZN cfg v

/-- LoadAccumulator from an effective address (R130). -/
def loadFrom (cfg : Config) (ea : Addr) (s : State) : State := loadValue cfg (s.mem.readByte ea) s

/-- The handler: resolve, then load; a fault of the resolver is raised before anything is written (R130, 60_exceptions.md R174). -/
def loadAccumulator (cfg : Config) (mode : Mode) (s : State) : Result :=
  match s.resolve cfg mode with
  | .ok ea => .next (loadFrom cfg ea s)
  | .error k => raiseFault k s

/-- 0xA9: the operand value is d8 itself (30_encoding.md R52), which is the byte at `immediateAddr s.pc` (log 18). -/
def execLdaImmediate (d8 : Byte) (s : State) : Result := .next (loadValue chosen d8 s)
/-- 0xA5. -/
def execLdaZeroPage (d8 : Byte) (s : State) : Result := .next (loadFrom chosen (zeroPageAddr d8) s)
/-- 0xB5. -/
def execLdaZeroPageX (d8 : Byte) (s : State) : Result := .next (loadFrom chosen (zeroPageIndexedAddr d8 s.x) s)
/-- 0xAD. -/
def execLdaAbsolute (d16 : Addr) (s : State) : Result := .next (loadFrom chosen (absoluteAddr d16) s)
/-- 0xBD. -/
def execLdaAbsoluteX (d16 : Addr) (s : State) : Result := .next (loadFrom chosen (absoluteIndexedAddr d16 s.x) s)
/-- 0xB9. -/
def execLdaAbsoluteY (d16 : Addr) (s : State) : Result := .next (loadFrom chosen (absoluteIndexedAddr d16 s.y) s)
/-- 0xA1. -/
def execLdaIndirectX (d8 : Byte) (s : State) : Result := .next (loadFrom chosen (indirectXAddr s.mem d8 s.x) s)
/-- 0xB1. -/
def execLdaIndirectY (d8 : Byte) (s : State) : Result := .next (loadFrom chosen (indirectYAddr chosen.indyPolicy s.mem d8 s.y) s)

end Sys2Proof.Machine
end

