-- ==== Sys2Proof/Machine/Register.lean ====
section
/-! DEFINITION. Machine/Register.lean: TransferAccumulatorToX and IncrementX (45_register_ops.md). -/

namespace Sys2Proof.Machine

/-- An instruction that produces a new X: X := v, then Z and N (R150, R151). -/
def produceX (cfg : Config) (v : Byte) (s : State) : State := (s.setX v).updateZN cfg v

/-- TransferAccumulatorToX (R150): X := A, flags from the new X. -/
def transferAccumulatorToX (cfg : Config) (s : State) : State := produceX cfg s.a s

/-- IncrementX (R151): X := X + 1 modulo 256, flags from the new X. -/
def incrementX (cfg : Config) (s : State) : State := produceX cfg (s.x + 1) s

/-- 0xAA. -/
def execTax (s : State) : Result := .next (transferAccumulatorToX chosen s)
/-- 0xE8. -/
def execInx (s : State) : Result := .next (incrementX chosen s)

end Sys2Proof.Machine
end

