-- ==== Sys2Proof/Machine/Store.lean ====
section
/-! DEFINITION. Machine/Store.lean: StoreAccumulator (43_load_store.md R131). -/

namespace Sys2Proof.Machine

/-- StoreAccumulator to an effective address: one byte, no flag (R131). -/
def storeTo (ea : Addr) (s : State) : State := s.setMem (s.mem.writeByte ea s.a)

/-- The handler: resolve, then store; a fault of the resolver is raised before the write (R131). -/
def storeAccumulator (cfg : Config) (mode : Mode) (s : State) : Result :=
  match s.resolve cfg mode with
  | .ok ea => .next (storeTo ea s)
  | .error k => raiseFault k s

/-- 0x85. -/
def execStaZeroPage (d8 : Byte) (s : State) : Result := .next (storeTo (zeroPageAddr d8) s)
/-- 0x95. -/
def execStaZeroPageX (d8 : Byte) (s : State) : Result := .next (storeTo (zeroPageIndexedAddr d8 s.x) s)
/-- 0x8D. -/
def execStaAbsolute (d16 : Addr) (s : State) : Result := .next (storeTo (absoluteAddr d16) s)
/-- 0x9D. -/
def execStaAbsoluteX (d16 : Addr) (s : State) : Result := .next (storeTo (absoluteIndexedAddr d16 s.x) s)
/-- 0x99. -/
def execStaAbsoluteY (d16 : Addr) (s : State) : Result := .next (storeTo (absoluteIndexedAddr d16 s.y) s)
/-- 0x81. -/
def execStaIndirectX (d8 : Byte) (s : State) : Result := .next (storeTo (indirectXAddr s.mem d8 s.x) s)
/-- 0x91. -/
def execStaIndirectY (d8 : Byte) (s : State) : Result := .next (storeTo (indirectYAddr chosen.indyPolicy s.mem d8 s.y) s)

end Sys2Proof.Machine
end

