-- ==== Sys2Proof/Machine/System.lean ====
section
/-! DEFINITION. Machine/System.lean: Break (46_system.md R160). -/

namespace Sys2Proof.Machine

/-- Break (R160): the engine enters Halted; no register, flag or memory cell changes. -/
def breakHalt (s : State) : State := s.setPhase .halted

/-- 0x00. -/
def execBrk (s : State) : Result := .next (breakHalt s)

end Sys2Proof.Machine
end

