-- ==== Sys2Proof/Machine/Dispatch.lean ====
section
/-! DEFINITION. Machine/Dispatch.lean: the handler of each instruction (42_execution_engine.md R113), run in the state after Fetch. -/

namespace Sys2Proof.Machine

def exec (i : Instr) (s : State) : Host.Outcome State Fault Refusal :=
  match i with
  | .brk => Sys2Proof.Machine.execBrk s
  | .adcIndirectX d8 => Sys2Proof.Machine.execAdcIndirectX d8 s
  | .adcZeroPage d8 => Sys2Proof.Machine.execAdcZeroPage d8 s
  | .adcImmediate d8 => Sys2Proof.Machine.execAdcImmediate d8 s
  | .adcAbsolute d16 => Sys2Proof.Machine.execAdcAbsolute d16 s
  | .adcIndirectY d8 => Sys2Proof.Machine.execAdcIndirectY d8 s
  | .adcZeroPageX d8 => Sys2Proof.Machine.execAdcZeroPageX d8 s
  | .adcAbsoluteY d16 => Sys2Proof.Machine.execAdcAbsoluteY d16 s
  | .adcAbsoluteX d16 => Sys2Proof.Machine.execAdcAbsoluteX d16 s
  | .staIndirectX d8 => Sys2Proof.Machine.execStaIndirectX d8 s
  | .staZeroPage d8 => Sys2Proof.Machine.execStaZeroPage d8 s
  | .staAbsolute d16 => Sys2Proof.Machine.execStaAbsolute d16 s
  | .staIndirectY d8 => Sys2Proof.Machine.execStaIndirectY d8 s
  | .staZeroPageX d8 => Sys2Proof.Machine.execStaZeroPageX d8 s
  | .staAbsoluteY d16 => Sys2Proof.Machine.execStaAbsoluteY d16 s
  | .staAbsoluteX d16 => Sys2Proof.Machine.execStaAbsoluteX d16 s
  | .ldaIndirectX d8 => Sys2Proof.Machine.execLdaIndirectX d8 s
  | .ldaZeroPage d8 => Sys2Proof.Machine.execLdaZeroPage d8 s
  | .ldaImmediate d8 => Sys2Proof.Machine.execLdaImmediate d8 s
  | .tax => Sys2Proof.Machine.execTax s
  | .ldaAbsolute d16 => Sys2Proof.Machine.execLdaAbsolute d16 s
  | .ldaIndirectY d8 => Sys2Proof.Machine.execLdaIndirectY d8 s
  | .ldaZeroPageX d8 => Sys2Proof.Machine.execLdaZeroPageX d8 s
  | .ldaAbsoluteY d16 => Sys2Proof.Machine.execLdaAbsoluteY d16 s
  | .ldaAbsoluteX d16 => Sys2Proof.Machine.execLdaAbsoluteX d16 s
  | .inx => Sys2Proof.Machine.execInx s

end Sys2Proof.Machine
end

