-- ==== Sys2Proof/Machine/Engine.lean ====
section
/-! DEFINITION. Machine/Engine.lean: the execution engine of 42_execution_engine.md, for any configuration: any opcode table and either
choice at each point the source leaves open. It goes phase by phase (Fetch, Decode, Execute) and is driven by the table's descriptors and
by the resolver; it uses neither `decode` nor `Instr`. -/

namespace Sys2Proof.Machine

/-- Fetch (R111): read the opcode byte, advance the program counter. -/
def fetchPhase (s : State) : Result := .next (s.afterFetch.setPhase (.decode s.fetchOpcode))

/-- Whether a mnemonic has a handler: the six of 00_scope.md R3. -/
def hasHandler : Mnemonic → Bool
  | .loadAccumulator => true
  | .storeAccumulator => true
  | .addWithCarry => true
  | .transferAccumulatorToX => true
  | .incrementX => true
  | .brk => true
  | .other _ => false

/-- Decode (R112) and the capture of the program counter (R113): an absent byte, or one whose descriptor names no handler (D13, log 11),
raises `UnsupportedOpcode`. -/
def decodePhase (cfg : Config) (opcode : Byte) (s : State) : Result :=
  match cfg.optab.find opcode with
  | some d => if hasHandler d.mnemonic then .next (s.setPhase (.execute opcode d s.pc)) else raiseFault (.unsupportedOpcode opcode) s
  | none => raiseFault (.unsupportedOpcode opcode) s

/-- Dispatch by identity; the handler gets the mode of this byte's descriptor (R113, R116). -/
def handler (cfg : Config) (opcode : Byte) (d : Descriptor) (s : State) : Result :=
  match d.mnemonic with
  | .loadAccumulator => loadAccumulator cfg d.mode s
  | .storeAccumulator => storeAccumulator cfg d.mode s
  | .addWithCarry => addWithCarry cfg d.mode s
  | .transferAccumulatorToX => .next (transferAccumulatorToX cfg s)
  | .incrementX => .next (incrementX cfg s)
  | .brk => .next (breakHalt s)
  | .other _ => raiseFault (.unsupportedOpcode opcode) s

/-- The program-counter advance after a handler (R114, D23, log 25): if the handler left pc as it was, skip the operand bytes. -/
def advance (pcBefore : Addr) (length : Nat) (t : State) : State :=
  if t.pc = pcBefore then t.setPc (t.pc + BitVec.ofNat 16 (length - 1)) else t

/-- What follows a handler that returned: after Break nothing (R115), else the advance of R114 and the next Fetch (R110). -/
def afterHandler (pcBefore : Addr) (length : Nat) (t : State) : State :=
  if t.phase.isHalted then t else (advance pcBefore length t).setPhase .fetch

/-- Execute (R113 to R115). -/
def executePhase (cfg : Config) (opcode : Byte) (d : Descriptor) (pcBefore : Addr) (s : State) : Result :=
  andThen (handler cfg opcode d s) fun t => .next (afterHandler pcBefore d.length t)

/-- One phase of the engine. An ill-formed table is refused (30_encoding.md R55). A halted engine stays halted and a fault is kept
(R115, 60_exceptions.md R176; log 12, log 10). -/
def tick (cfg : Config) (s : State) : Result :=
  if cfg.optab.wf then
    match s.phase with
    | .fetch => fetchPhase s
    | .decode opcode => decodePhase cfg opcode s
    | .execute opcode d pcBefore => executePhase cfg opcode d pcBefore s
    | .halted => .next s
    | .faulted k => .fault (Fault.ofKind k s)
  else .refused .illFormedTable

/-- One iteration in full, the step function of R116: from the phase the engine is in to the end of the iteration. -/
def iteration (cfg : Config) (s : State) : Result :=
  match s.phase with
  | .fetch => andThen (tick cfg s) fun t => andThen (tick cfg t) (tick cfg)
  | .decode _ => andThen (tick cfg s) (tick cfg)
  | .execute _ _ _ => tick cfg s
  | .halted => tick cfg s
  | .faulted _ => tick cfg s

end Sys2Proof.Machine
end

