-- ==== Sys2Proof/Machine/Iterate.lean ====
section
/-! DEFINITION. Machine/Iterate.lean: one instruction as one atomic step (42_execution_engine.md R110, D19), by decoding the bytes at the
program counter and running `exec`. -/

namespace Sys2Proof.Machine

/-- Run a decoded instruction as the engine does: its handler in the state after Fetch (R111, R113), then the advance (R114, R115). -/
def runInstr (i : Instr) (s : State) : Result :=
  andThen (exec i s.afterFetch) fun t => .next (afterHandler (s.pc + 1) i.length t)

/-- One atomic step from Fetch (R116). The operand bytes are read with the opcode, before the handler runs (20_memory.md R41). -/
def stepFromFetch (s : State) : Result :=
  match decode s.instrBytes with
  | .ok (i, _) => runInstr i s
  | .error _ => raiseFault (.unsupportedOpcode s.fetchOpcode) s.afterFetch

/-- One step. In the middle of an iteration the step completes that iteration (log 15); a halted engine stays as it is and a fault is
kept (log 12, log 10). -/
def stepOnce (s : State) : Result :=
  match s.phase with
  | .fetch => stepFromFetch s
  | .decode _ => iteration chosen s
  | .execute _ _ _ => iteration chosen s
  | .halted => .next s
  | .faulted k => .fault (Fault.ofKind k s)

/-- Place an instruction word of the opcode table at the program counter and put the engine in Fetch. -/
def placeWord (nbits w : Nat) (s : State) : State := (s.setMem (s.mem.placeBytes s.pc (tableBytes nbits w))).startRun

end Sys2Proof.Machine
end

