-- ==== Sys2Proof/Machine/Step.lean ====
section
/-! DEFINITION. Machine/Step.lean: the step function, and placing an instruction where the step fetches. -/

namespace Sys2Proof.Machine

/-- One step of the machine: one iteration of the engine (42_execution_engine.md R116). -/
def step (s : State) : Host.Outcome State Fault Refusal := stepOnce s

/-- The state with an instruction word stored at the program counter and a run about to fetch it (log 19). -/
def State.withFetchWord (s : State) (nbits w : Nat) : State := placeWord nbits w s

end Sys2Proof.Machine
end

