-- ==== Sys2Proof/Machine/HostCalls.lean ====
section
/-! DEFINITION. Machine/HostCalls.lean: the host's calls (70_reset_and_hazards.md), each made only between runs (R198). -/

namespace Sys2Proof.Machine

/-- Construction (R190): everything zero, no run in progress. -/
def construct : State where
  a := 0x00
  x := 0x00
  y := 0x00
  pc := 0x0000
  p := 0x00
  mem := []
  phase := .fetch

/-- `reset()` (R192): A and X zero, Y under RESET_CLEARS_Y (D9, log 8), P from RESET_FLAGS (D10, log 1), pc from the reset vector; memory
unchanged; no run in progress (10_state.md R27). -/
def hostReset (cfg : Config) (s : State) : State where
  a := 0x00
  x := 0x00
  y := if cfg.resetClearsY then 0x00 else s.y
  pc := s.mem.readWord resetVector
  p := cfg.resetFlags
  mem := s.mem
  phase := .fetch

/-- Copy an image to consecutive addresses from the load origin (R191, first line). -/
def copyImage (m : Memory) (image : List Byte) : Memory := m.placeBytes loadOrigin image

/-- `load(bytes)` (R191): the image first, then the reset vector (D17, log 14); an image longer than 0x8000 bytes is refused (R199). -/
def load (image : List Byte) (s : State) : Result :=
  if imageWf image then .next (s.setMem ((copyImage s.mem image).writeWord resetVector loadOrigin)) else .refused .imageTooLong

/-- How a run ends (42_execution_engine.md R117): halted, faulted, refused, or still going when the budget of steps is spent; the spec
bounds no run (R208), so `unfinished` is no end state (log 22). -/
inductive RunResult where
  | halted (s : State)
  | faulted (f : Fault)
  | refused (r : Refusal)
  | unfinished (s : State)
deriving DecidableEq, Repr

/-- Apply a step function until Break or a fault, for at most `budget` steps (R117). -/
def runLoop (stepFn : State → Result) : Nat → State → RunResult
  | 0, s => .unfinished s
  | budget + 1, s =>
    match stepFn s with
    | .next t => if t.phase.isHalted then .halted t else runLoop stepFn budget t
    | .fault f => .faulted f
    | .refused r => .refused r

/-- `run()` (R193): a new run from the current pc; nothing is reset. -/
def run (budget : Nat) (s : State) : RunResult := runLoop step budget s.startRun

/-- `run()` of a machine of another configuration. -/
def runUnder (cfg : Config) (budget : Nat) (s : State) : RunResult := runLoop (iteration cfg) budget s.startRun

/-- `loadAndRun(bytes)` (R194): load, reset, run, in that order. -/
def loadAndRun (image : List Byte) (budget : Nat) (s : State) : RunResult :=
  match load image s with
  | .next t => run budget (hostReset chosen t)
  | .fault f => .faulted f
  | .refused r => .refused r

/-- `loadAndRun(bytes)` on a machine of another configuration. -/
def loadAndRunUnder (cfg : Config) (image : List Byte) (budget : Nat) (s : State) : RunResult :=
  match load image s with
  | .next t => runUnder cfg budget (hostReset cfg t)
  | .fault f => .faulted f
  | .refused r => .refused r

/-! ## Accessors (R195) -/

/-- `readByte(addr)`. -/
def hostReadByte (addr : Addr) (s : State) : Byte := s.mem.readByte addr

/-- `writeByte(addr, v)`. -/
def hostWriteByte (addr : Addr) (v : Byte) (s : State) : State := s.setMem (s.mem.writeByte addr v)

/-- `readWord(addr)` under either WORD_WRAP policy (20_memory.md R32, U1). -/
def hostReadWord (cfg : Config) (addr : Addr) (s : State) : Except FaultKind Addr := s.mem.readWordUnder cfg.wordWrap addr

/-- `writeWord(addr, v)` under either WORD_WRAP policy (20_memory.md R34, U1). -/
def hostWriteWord (cfg : Config) (addr v : Addr) (s : State) : Except FaultKind State :=
  if wordRejected cfg.wordWrap addr then .error (.wordAccessRejected addr) else .ok (s.setMem (s.mem.writeWord addr v))

/-- FlagInsert on P (40_flag_unit.md R71). -/
def hostFlagInsert (f : Flag) (s : State) : State := s.setP (flagInsert s.p f.index)

/-- FlagRemove on P (40_flag_unit.md R72). -/
def hostFlagRemove (f : Flag) (s : State) : State := s.setP (flagRemove s.p f.index)

/-- FlagTest on P (40_flag_unit.md R73). -/
def hostFlagTest (f : Flag) (s : State) : Bool := flagOf s.p f

end Sys2Proof.Machine
end

