-- ==== Sys2Proof/Safety.lean ====
section
/-! DEFINITION. Safety.lean: what counts as a safe state and a safe run. -/

namespace Sys2Proof

open Sys2Proof.Machine

/-- Zero and Negative are not both set: what UpdateZN leaves (10_state.md R23). -/
def ZnExclusive (s : State) : Prop := ¬(flagOf s.p .zero = true ∧ flagOf s.p .negative = true)

/-- The flags and register no instruction writes: InterruptDisable, DecimalMode, Break, Break2 and Y (10_state.md R12, R17 to R20). -/
def SameInert (s t : State) : Prop :=
  t.y = s.y ∧ ∀ f ∈ [Flag.interruptDisable, Flag.decimalMode, Flag.brk, Flag.break2], flagOf t.p f = flagOf s.p f

/-- `t` is reached from `s` by steps that answer next. -/
inductive Reaches : State → State → Prop where
  | refl (s : State) : Reaches s s
  | tail {s t u : State} (h : Reaches s t) (hs : step t = .next u) : Reaches s u

/-- The opcode byte at the program counter has a row in the table. -/
def SupportedNext (s : State) : Prop := (opcodeTable.find s.fetchOpcode).isSome = true

/-- A state from which no run of steps faults or is refused: every state reached steps on. -/
def SafeFrom (s : State) : Prop := ∀ t, Reaches s t → ∃ u, step t = .next u

end Sys2Proof
end

