-- ==== Sys2Proof/Certificates/Slice0/Obligations.lean ====
section
/-! DEFINITION. Certificates/Slice0/Obligations.lean: the statements about the model, and the few words they are written in. In a statement
about `exec i s`, `s` is the state after Fetch: `s.pc` is the address of byte 1 (10_state.md R13). -/

open Sys2Proof Sys2Proof.Machine

namespace Sys2Proof.Claims

/-- From `p` to `q`, Zero and Negative are written from the value `v` and the other six flags are kept (40_flag_unit.md R74). -/
def ZnWritten (v p q : Byte) : Prop :=
  (flagOf q .zero = true ↔ v = 0) ∧ (flagOf q .negative = true ↔ 128 ≤ v.toNat) ∧
  ∀ f, f ≠ .zero → f ≠ .negative → flagOf q f = flagOf p f

/-- The carry-in as a number. -/
def carryOf (p : Byte) : Nat := if flagOf p .carry then 1 else 0

/-- The signed sum of an addition (40_flag_unit.md R78, third form). -/
def signedSum (a m p : Byte) : Int := a.toInt + m.toInt + (carryOf p : Int)

/-- From `p` to `q`, the four flags of an addition of `a`, `m` and the Carry of `p` are written and I, D, B, U kept (R80). -/
def AddWritten (a m p q : Byte) : Prop :=
  (flagOf q .carry = true ↔ 255 < a.toNat + m.toNat + carryOf p) ∧
  (flagOf q .zero = true ↔ (a.toNat + m.toNat + carryOf p) % 256 = 0) ∧
  (flagOf q .overflow = true ↔ signedSum a m p < -128 ∨ 127 < signedSum a m p) ∧
  (flagOf q .negative = true ↔ 128 ≤ (a.toNat + m.toNat + carryOf p) % 256) ∧
  ∀ f, f ≠ .carry → f ≠ .zero → f ≠ .overflow → f ≠ .negative → flagOf q f = flagOf p f

/-- Every byte of memory reads as before. -/
def SameMemory (s t : State) : Prop := ∀ addr, t.mem.readByte addr = s.mem.readByte addr

/-- What LoadAccumulator of the byte `v` leaves. -/
def Loads (v : Byte) (s t : State) : Prop :=
  t.a = v ∧ ZnWritten v s.p t.p ∧ t.x = s.x ∧ t.y = s.y ∧ t.pc = s.pc ∧ t.phase = s.phase ∧ SameMemory s t

/-- What StoreAccumulator to the address `ea` leaves. -/
def Stores (ea : Addr) (s t : State) : Prop :=
  t.mem.readByte ea = s.a ∧ (∀ addr, addr ≠ ea → t.mem.readByte addr = s.mem.readByte addr) ∧
  t.a = s.a ∧ t.x = s.x ∧ t.y = s.y ∧ t.p = s.p ∧ t.pc = s.pc ∧ t.phase = s.phase

/-- What AddWithCarry of the byte `m` leaves. -/
def Adds (m : Byte) (s t : State) : Prop :=
  t.a.toNat = (s.a.toNat + m.toNat + carryOf s.p) % 256 ∧ AddWritten s.a m s.p t.p ∧
  t.x = s.x ∧ t.y = s.y ∧ t.pc = s.pc ∧ t.phase = s.phase ∧ SameMemory s t

/-- Every register and the status byte are as before. -/
def SameRegisters (s t : State) : Prop := t.a = s.a ∧ t.x = s.x ∧ t.y = s.y ∧ t.p = s.p ∧ t.pc = s.pc

/-- The cells the resolver reads in each mode (41_addressing_resolver.md R102), pointers taken from memory `m`. -/
def cellsRead (mode : Mode) (pc : Addr) (x : Byte) (m : Memory) : List Addr :=
  match mode with
  | .immediate => []
  | .zeroPage => [pc]
  | .zeroPageX => [pc]
  | .zeroPageY => [pc]
  | .absolute => [pc, pc + 1]
  | .absoluteX => [pc, pc + 1]
  | .absoluteY => [pc, pc + 1]
  | .indirectX => [pc, zext16 (m.readByte pc + x), zext16 (m.readByte pc + x + 1)]
  | .indirectY => [pc, zext16 (m.readByte pc), zext16 (m.readByte pc + 1)]
  | .implied => []

end Sys2Proof.Claims

open Sys2Proof.Claims

/-! ## Encoding -/

/-- The five rows the source shows (30_encoding.md R57), and words of the three formats (R51) of the default table (log 2), written out
byte by byte, decode to the instructions they stand for, with the bytes after them left over. -/
def Obligations.DecodesWordsOfTheTable : Prop :=
  decode [0xA9, 0x05, 0xAA] = .ok (.ldaImmediate 0x05, [0xAA]) ∧
  decode [0xAA, 0xE8] = .ok (.tax, [0xE8]) ∧
  decode [0xE8, 0x00] = .ok (.inx, [0x00]) ∧
  decode [0x00] = .ok (.brk, []) ∧
  decode [0x95, 0x01, 0x00] = .ok (.staZeroPageX 0x01, [0x00]) ∧
  decode [0x8D, 0x34, 0x12, 0xEA] = .ok (.staAbsolute 0x1234, [0xEA]) ∧
  decode [0xA1, 0x0F] = .ok (.ldaIndirectX 0x0F, []) ∧
  decode [0x7D, 0xFF, 0x00] = .ok (.adcAbsoluteX 0x00FF, []) ∧
  decode [0x02, 0x00] = .error (.unsupportedOpcode 0x02) ∧
  decode [0x8D, 0x34] = .error (.truncated 0x8D)

/-- Decoding the encoding of any instruction, whatever bytes follow, gives the instruction back with every operand bit and leaves the
bytes that follow. -/
def Obligations.DecodeOfEncodeIsTheInstruction : Prop :=
  ∀ (i : Instr) (rest : List Byte), decode (encode i ++ rest) = .ok (i, rest)

/-- Whatever decodes is the encoding of what it decodes to, followed by what is left over: no two encodings of one instruction, no byte
dropped. -/
def Obligations.DecodedBytesAreTheEncoding : Prop :=
  ∀ (bytes rest : List Byte) (i : Instr), decode bytes = .ok (i, rest) → bytes = encode i ++ rest

/-- A byte is rejected as unsupported exactly where no instruction has it as its opcode byte (30_encoding.md R59), whatever follows it. -/
def Obligations.UnsupportedExactlyWhereNoInstructionHasTheOpcode : Prop :=
  ∀ (b : Byte) (rest : List Byte), decode (b :: rest) = .error (.unsupportedOpcode b) ↔ ∀ i : Instr, i.opcode ≠ b

/-- The default table and the instructions say the same: a byte's row is the descriptor of the instruction with that opcode byte, and its
length is one more than the operand bytes of its mode (30_encoding.md R55). The bytes are those of the default table (log 2). -/
def Obligations.TableRowsAreTheInstructionsDescriptors : Prop :=
  ∀ (b : Byte) (d : Descriptor), opcodeTable.find b = some d →
    d.length = 1 + d.mode.operandBytes ∧ ∃ i : Instr, i.opcode = b ∧ i.descriptor = d ∧ (encode i).length = d.length

/-! ## Memory -/

/-- A byte written reads back, at every address; every other byte and every register keeps its value (20_memory.md R33). -/
def Obligations.ByteWriteChangesThatByteAlone : Prop :=
  ∀ (s : State) (addr other : Addr) (v : Byte), s.mem.wf = true →
    hostReadByte addr (hostWriteByte addr v s) = v ∧
    (other ≠ addr → hostReadByte other (hostWriteByte addr v s) = hostReadByte other s) ∧
    SameRegisters s (hostWriteByte addr v s) ∧ (hostWriteByte addr v s).phase = s.phase

/-- A word written reads back, in every configuration, at every address where the write is accepted: every address but 0xFFFF, and 0xFFFF
too where the configuration wraps word accesses. The source states it for [0, 0xFFFD] (20_memory.md, "A property the source states"). At
0xFFFE and 0xFFFF it is the spec's own inference, marked derived there, from the wrap policy (the spec's decision D4, log 3); which
addresses the reject policy accepts is the model's form of the alternative U1 (log 24). -/
def Obligations.WordWriteReadsBack : Prop :=
  ∀ (cfg : Config) (s : State) (addr v : Addr), s.mem.wf = true →
    (∀ t, hostWriteWord cfg addr v s = .ok t → hostReadWord cfg addr t = .ok v) ∧
    (addr.toNat ≠ 0xFFFF ∨ cfg.wordWrap = .wrap → ∃ t, hostWriteWord cfg addr v s = .ok t)

/-- A word write puts the low byte at the address and the high byte at the next, modulo 65536 (the spec's decision D4, log 3), and changes
no other byte (20_memory.md, "Byte order, alignment, widths"). -/
def Obligations.WordWriteIsLittleEndian : Prop :=
  ∀ (s t : State) (addr v other : Addr), s.mem.wf = true → hostWriteWord chosen addr v s = .ok t →
    (hostReadByte addr t).toNat = v.toNat % 256 ∧
    (hostReadByte (BitVec.ofNat 16 ((addr.toNat + 1) % 65536)) t).toNat = v.toNat / 256 ∧
    (other ≠ addr → other.toNat ≠ (addr.toNat + 1) % 65536 → hostReadByte other t = hostReadByte other s) ∧
    SameRegisters s t

/-- ZpReadWord takes its high byte from page 0: at 0xFF from address 0x0000, elsewhere it is the plain word read; both indirect modes read
their pointer with it (20_memory.md R35; for Indirect_Y the spec's decision D6, log 5). -/
def Obligations.ZeroPageWordReadStaysInPageZero : Prop :=
  ∀ (m : Memory) (p x : Byte),
    m.zpReadWord 0xFF = m.readByte 0x0000 ++ m.readByte 0x00FF ∧
    (p ≠ 0xFF → m.zpReadWord p = m.readWord (BitVec.ofNat 16 p.toNat)) ∧
    indirectXAddr m p x = m.zpReadWord (p + x) ∧
    indirectYAddr chosen.indyPolicy m p 0x00 = m.zpReadWord p

/-- Two memories in canonical form that read the same everywhere are equal (the model's representation, log 21). -/
def Obligations.CanonicalMemoriesThatReadTheSameAreEqual : Prop :=
  ∀ m n : Memory, m.wf = true → n.wf = true → (∀ addr, m.readByte addr = n.readByte addr) → m = n

/-- Storing the byte a cell already holds changes nothing (43_load_store.md, corner cases of StoreAccumulator). -/
def Obligations.StoringTheHeldByteChangesNothing : Prop :=
  ∀ (s : State) (d16 : Addr), s.mem.wf = true → s.mem.readByte d16 = s.a → exec (.staAbsolute d16) s = .next s

/-! ## The flag-computation unit -/

/-- FlagInsert sets the named bit, FlagRemove clears it, both keep the other seven; FlagTest reads it; each at its port (40_flag_unit.md
R71, R72, R73). -/
def Obligations.FlagInsertRemoveTestTouchOneBit : Prop :=
  ∀ (i : FcuIn) (k : Nat), k < 8 →
    (i.fop = 3 → (fcu i).pOut = flagInsert i.pIn i.fsel) ∧
    (i.fop = 4 → (fcu i).pOut = flagRemove i.pIn i.fsel) ∧
    (fcu i).ftest = flagTest i.pIn i.fsel ∧
    (flagInsert i.pIn i.fsel).getLsbD k = (if k = i.fsel.toNat then true else i.pIn.getLsbD k) ∧
    (flagRemove i.pIn i.fsel).getLsbD k = (if k = i.fsel.toNat then false else i.pIn.getLsbD k) ∧
    (flagTest i.pIn i.fsel = true ↔ i.pIn.toNat / 2 ^ i.fsel.toNat % 2 = 1)

/-- UpdateZN sets Zero iff the value is 0 and Negative iff its bit 7 is set, clears them otherwise, keeps the other six bits, and never
leaves both set; so does the port `fop` = 1, whose `r` is the value (40_flag_unit.md R74). -/
def Obligations.UpdateZNWritesZeroAndNegativeAlone : Prop :=
  ∀ (p v : Byte) (i : FcuIn),
    ZnWritten v p (updateZN p v) ∧
    ¬(flagOf (updateZN p v) .zero = true ∧ flagOf (updateZN p v) .negative = true) ∧
    (i.fop = 1 → (fcu i).pOut = updateZN i.pIn i.val ∧ (fcu i).r = i.val)

/-- Carry is set iff the sum exceeds 255, it is bit 8 of the 9-bit sum, result and carry together are the sum, and AddFlags writes it
under either policy for Overflow (40_flag_unit.md R77). -/
def Obligations.CarryIsTheNinthBitOfTheSum : Prop :=
  ∀ (a m p : Byte) (policy : AdcOverflow),
    (sum9 a m (carryIn p)).toNat = a.toNat + m.toNat + carryOf p ∧
    (carryOut a m (carryIn p) = true ↔ 255 < a.toNat + m.toNat + carryOf p) ∧
    carryOut a m (carryIn p) = (sum9 a m (carryIn p)).getLsbD 8 ∧
    (addResult a m (carryIn p)).toNat + 256 * (if carryOut a m (carryIn p) then 1 else 0) = a.toNat + m.toNat + carryOf p ∧
    flagOf (addFlags policy p a m) .carry = carryOut a m (carryIn p)

/-- The three forms of signed overflow agree (40_flag_unit.md, "Add with carry"; that Overflow is computed, and cleared otherwise, is the
spec's decision D8, log 7). -/
def Obligations.ThreeFormsOfOverflowAgree : Prop :=
  ∀ (a m p : Byte),
    (signedOverflow a m (carryIn p) = true ↔
      ((a ^^^ addResult a m (carryIn p)) &&& (m ^^^ addResult a m (carryIn p)) &&& 0x80) ≠ 0) ∧
    (signedOverflow a m (carryIn p) = true ↔ signedSum a m p < -128 ∨ 127 < signedSum a m p)

/-- AddFlags writes C, V, Z and N and keeps I, D, B and U; DecimalMode is not read: setting it changes neither the result nor any other
flag (40_flag_unit.md, "AddFlags as one operation"; V by the spec's decision D8, log 7; D by D11, log 9). -/
def Obligations.AddFlagsWritesCarryOverflowZeroNegative : Prop :=
  ∀ (a m p : Byte) (i : FcuIn),
    AddWritten a m p (addFlags .computed p a m) ∧
    addFlags .computed (flagInsert p Flag.decimalMode.index) a m = flagInsert (addFlags .computed p a m) Flag.decimalMode.index ∧
    (i.fop = 2 → (fcu i).pOut = addFlags .computed i.pIn i.a i.m ∧ (fcu i).r = addResult i.a i.m (carryIn i.pIn))

/-- `fop` 0 and the unused codes 5 to 7 hold P (40_flag_unit.md, "What the unit does not compute"; the codes are the spec's decision D1,
log 20), and P is its eight flags at the weights of 10_state.md, "Status byte P" (the positions are the spec's decision D3, log 17). -/
def Obligations.HoldKeepsPAndPIsItsEightFlags : Prop :=
  ∀ (i : FcuIn) (p : Byte),
    ((i.fop = 0 ∨ 5 ≤ i.fop.toNat) → (fcu i).pOut = i.pIn ∧ (fcu i).r = i.val) ∧
    p.toNat = (flagOf p .carry).toNat * 0x01 + (flagOf p .zero).toNat * 0x02 + (flagOf p .interruptDisable).toNat * 0x04 +
      (flagOf p .decimalMode).toNat * 0x08 + (flagOf p .brk).toNat * 0x10 + (flagOf p .break2).toNat * 0x20 +
      (flagOf p .overflow).toNat * 0x40 + (flagOf p .negative).toNat * 0x80

/-- The configuration alternatives of the source's baseline (93_implementation_defined.md U3, U4): with ZN_SOURCE the accumulator,
IncrementX sets Zero and Negative from A; with ADC_OVERFLOW unchanged, AddWithCarry keeps V. The model does not run with them (log 6,
log 7). -/
def Obligations.BaselineAlternativesOfTheFlags : Prop :=
  ∀ (cfg : Config) (s : State) (m : Byte),
    (cfg.znSource = .accumulator → ZnWritten s.a s.p (incrementX cfg s).p ∧ (incrementX cfg s).x = s.x + 1) ∧
    (cfg.adcOverflow = .unchanged → flagOf (addValue cfg m s).p .overflow = flagOf s.p .overflow)

/-! ## The addressing-mode resolver -/

/-- Immediate resolves to the program counter itself and Implied has no address and faults (41_addressing_resolver.md R91, R100), in every
configuration. -/
def Obligations.ResolveImmediateAndImplied : Prop :=
  ∀ (cfg : Config) (pc : Addr) (x y : Byte) (m : Memory),
    resolve cfg .immediate pc x y m = .ok pc ∧
    resolve cfg .implied pc x y m = .error (.unsupportedAddressingMode Mode.implied.tag)

/-- ZeroPage, ZeroPage_X and ZeroPage_Y resolve to the operand byte, plus nothing, X or Y, modulo 256, so within page 0
(41_addressing_resolver.md R92, R93, R94), in every configuration. -/
def Obligations.ResolveZeroPageModesWrapModulo256 : Prop :=
  ∀ (cfg : Config) (pc : Addr) (x y : Byte) (m : Memory),
    (∃ ea, resolve cfg .zeroPage pc x y m = .ok ea ∧ ea.toNat = (m.readByte pc).toNat) ∧
    (∃ ea, resolve cfg .zeroPageX pc x y m = .ok ea ∧ ea.toNat = ((m.readByte pc).toNat + x.toNat) % 256) ∧
    (∃ ea, resolve cfg .zeroPageY pc x y m = .ok ea ∧ ea.toNat = ((m.readByte pc).toNat + y.toNat) % 256)

/-- Absolute, Absolute_X and Absolute_Y resolve to the little-endian word at the program counter, plus nothing, X or Y, modulo 65536
(41_addressing_resolver.md, the Absolute modes); the operand's second byte is at pc + 1 modulo 65536 (the spec's decision D4, log 3). -/
def Obligations.ResolveAbsoluteModesWrapModulo65536 : Prop :=
  ∀ (pc : Addr) (x y : Byte) (m : Memory) (w : Nat),
    w = (m.readByte pc).toNat + 256 * (m.readByte (BitVec.ofNat 16 ((pc.toNat + 1) % 65536))).toNat →
    (∃ ea, resolve chosen .absolute pc x y m = .ok ea ∧ ea.toNat = w) ∧
    (∃ ea, resolve chosen .absoluteX pc x y m = .ok ea ∧ ea.toNat = (w + x.toNat) % 65536) ∧
    (∃ ea, resolve chosen .absoluteY pc x y m = .ok ea ∧ ea.toNat = (w + y.toNat) % 65536)

/-- Indirect_X adds X to the base byte modulo 256 and resolves to the word there, its high byte at the pointer + 1 modulo 256; nothing is
added afterwards (41_addressing_resolver.md R98), in every configuration. -/
def Obligations.ResolveIndirectXWrapsThePointer : Prop :=
  ∀ (cfg : Config) (pc : Addr) (x y : Byte) (m : Memory) (ptr : Nat),
    ptr = ((m.readByte pc).toNat + x.toNat) % 256 →
    ∃ ea, resolve cfg .indirectX pc x y m = .ok ea ∧
      ea.toNat = (m.readByte (BitVec.ofNat 16 ptr)).toNat + 256 * (m.readByte (BitVec.ofNat 16 ((ptr + 1) % 256))).toNat

/-- Indirect_Y takes the word at the pointer byte, its high byte at the pointer + 1 modulo 256, and adds Y modulo 65536 (the spec's
decisions D5 and D6, log 4 and log 5). The baseline alternative (93_implementation_defined.md U2) is Indirect_X with Y for X, and agrees
with it where Y is 0. -/
def Obligations.ResolveIndirectYDereferencesThenAddsY : Prop :=
  ∀ (pc : Addr) (x y : Byte) (m : Memory) (ptr : Nat) (cfg : Config),
    ptr = (m.readByte pc).toNat →
    (∃ ea, resolve chosen .indirectY pc x y m = .ok ea ∧
      ea.toNat = ((m.readByte (BitVec.ofNat 16 ptr)).toNat + 256 * (m.readByte (BitVec.ofNat 16 ((ptr + 1) % 256))).toNat + y.toNat)
        % 65536) ∧
    (cfg.indyPolicy = .addThenDereference → resolve cfg .indirectY pc x y m = resolve cfg .indirectX pc y x m) ∧
    resolve cfg .indirectY pc x 0x00 m = resolve chosen .indirectY pc x 0x00 m

/-- The resolver's 4-bit port: the tag of a mode resolves as the mode does, and the codes 10 to 15 fault with their code
(41_addressing_resolver.md, "The ten modes"; the codes are the spec's decision D2, log 20). -/
def Obligations.TagPortResolvesModesAndFaultsOnUnusedCodes : Prop :=
  ∀ (cfg : Config) (mode : Mode) (tag : BitVec 4) (pc : Addr) (x y : Byte) (m : Memory),
    resolveTag cfg mode.tag pc x y m = resolve cfg mode pc x y m ∧
    (10 ≤ tag.toNat → resolveTag cfg tag pc x y m = .error (.unsupportedAddressingMode tag))

/-- The resolver's answer depends on the mode, pc, X, Y and at most three memory cells, those the mode reads (41_addressing_resolver.md,
"Memory reads per call", marked derived there). -/
def Obligations.ResolverReadsAtMostThreeCells : Prop :=
  ∀ (mode : Mode) (pc : Addr) (x y : Byte) (m n : Memory),
    (cellsRead mode pc x m).length ≤ 3 ∧
    ((∀ addr ∈ cellsRead mode pc x m, n.readByte addr = m.readByte addr) →
      resolve chosen mode pc x y n = resolve chosen mode pc x y m)

/-- With WORD_WRAP set to reject (93_implementation_defined.md U1), a word access at 0xFFFF faults, an Absolute operand fetch there
included, and nowhere else. The model does not run with it (log 24). -/
def Obligations.RejectedWordAccessFaultsAtFFFFOnly : Prop :=
  ∀ (cfg : Config) (s : State) (addr : Addr) (x y : Byte), cfg.wordWrap = .reject →
    (hostReadWord cfg addr s = .error (.wordAccessRejected addr) ↔ addr = 0xFFFF) ∧
    (∀ v, hostWriteWord cfg addr v s = .error (.wordAccessRejected addr) ↔ addr = 0xFFFF) ∧
    (resolve cfg .absolute addr x y s.mem = .error (.wordAccessRejected addr) ↔ addr = 0xFFFF) ∧
    (resolve cfg .absoluteX addr x y s.mem = .error (.wordAccessRejected addr) ↔ addr = 0xFFFF) ∧
    (resolve cfg .absoluteY addr x y s.mem = .error (.wordAccessRejected addr) ↔ addr = 0xFFFF)

/-! ## The instructions -/

/-- LoadAccumulator (43_load_store.md R130) completes in every mode, in every state: A is the byte at the effective address (the operand
byte itself for Immediate), Zero and Negative are from the new A, and nothing else changes; with the mode Implied its handler faults
with nothing written. -/
def Obligations.LoadAccumulatorLoadsAndSetsZN : Prop :=
  ∀ (s : State) (d8 : Byte) (d16 : Addr) (cfg : Config),
    (∃ t, exec (.ldaImmediate d8) s = .next t ∧ Loads d8 s t) ∧
    (∃ t, exec (.ldaZeroPage d8) s = .next t ∧ Loads (s.mem.readByte (zeroPageAddr d8)) s t) ∧
    (∃ t, exec (.ldaZeroPageX d8) s = .next t ∧ Loads (s.mem.readByte (zeroPageIndexedAddr d8 s.x)) s t) ∧
    (∃ t, exec (.ldaAbsolute d16) s = .next t ∧ Loads (s.mem.readByte (absoluteAddr d16)) s t) ∧
    (∃ t, exec (.ldaAbsoluteX d16) s = .next t ∧ Loads (s.mem.readByte (absoluteIndexedAddr d16 s.x)) s t) ∧
    (∃ t, exec (.ldaAbsoluteY d16) s = .next t ∧ Loads (s.mem.readByte (absoluteIndexedAddr d16 s.y)) s t) ∧
    (∃ t, exec (.ldaIndirectX d8) s = .next t ∧ Loads (s.mem.readByte (indirectXAddr s.mem d8 s.x)) s t) ∧
    (∃ t, exec (.ldaIndirectY d8) s = .next t ∧
      Loads (s.mem.readByte (indirectYAddr chosen.indyPolicy s.mem d8 s.y)) s t) ∧
    loadAccumulator cfg .implied s = raiseFault (.unsupportedAddressingMode Mode.implied.tag) s

/-- StoreAccumulator (43_load_store.md R131) completes in every mode: the byte at the effective address becomes A, every other byte, every
register and every flag keeps its value; with the mode Implied its handler faults with nothing written. -/
def Obligations.StoreAccumulatorStoresOneByte : Prop :=
  ∀ (s : State) (d8 : Byte) (d16 : Addr) (cfg : Config), s.mem.wf = true →
    (∃ t, exec (.staZeroPage d8) s = .next t ∧ Stores (zeroPageAddr d8) s t) ∧
    (∃ t, exec (.staZeroPageX d8) s = .next t ∧ Stores (zeroPageIndexedAddr d8 s.x) s t) ∧
    (∃ t, exec (.staAbsolute d16) s = .next t ∧ Stores (absoluteAddr d16) s t) ∧
    (∃ t, exec (.staAbsoluteX d16) s = .next t ∧ Stores (absoluteIndexedAddr d16 s.x) s t) ∧
    (∃ t, exec (.staAbsoluteY d16) s = .next t ∧ Stores (absoluteIndexedAddr d16 s.y) s t) ∧
    (∃ t, exec (.staIndirectX d8) s = .next t ∧ Stores (indirectXAddr s.mem d8 s.x) s t) ∧
    (∃ t, exec (.staIndirectY d8) s = .next t ∧ Stores (indirectYAddr chosen.indyPolicy s.mem d8 s.y) s t) ∧
    storeAccumulator cfg .implied s = raiseFault (.unsupportedAddressingMode Mode.implied.tag) s

/-- AddWithCarry (44_arithmetic.md) completes in every mode, in every state: A is A plus the byte plus Carry, modulo 256, the four flags
are those of the sum, and nothing else changes; with the mode Implied its handler faults with nothing written. Overflow is the spec's
decision D8 (log 7), binary addition whatever DecimalMode holds D11 (log 9). -/
def Obligations.AddWithCarryAddsAndSetsCVZN : Prop :=
  ∀ (s : State) (d8 : Byte) (d16 : Addr) (cfg : Config),
    (∃ t, exec (.adcImmediate d8) s = .next t ∧ Adds d8 s t) ∧
    (∃ t, exec (.adcZeroPage d8) s = .next t ∧ Adds (s.mem.readByte (zeroPageAddr d8)) s t) ∧
    (∃ t, exec (.adcZeroPageX d8) s = .next t ∧ Adds (s.mem.readByte (zeroPageIndexedAddr d8 s.x)) s t) ∧
    (∃ t, exec (.adcAbsolute d16) s = .next t ∧ Adds (s.mem.readByte (absoluteAddr d16)) s t) ∧
    (∃ t, exec (.adcAbsoluteX d16) s = .next t ∧ Adds (s.mem.readByte (absoluteIndexedAddr d16 s.x)) s t) ∧
    (∃ t, exec (.adcAbsoluteY d16) s = .next t ∧ Adds (s.mem.readByte (absoluteIndexedAddr d16 s.y)) s t) ∧
    (∃ t, exec (.adcIndirectX d8) s = .next t ∧ Adds (s.mem.readByte (indirectXAddr s.mem d8 s.x)) s t) ∧
    (∃ t, exec (.adcIndirectY d8) s = .next t ∧
      Adds (s.mem.readByte (indirectYAddr chosen.indyPolicy s.mem d8 s.y)) s t) ∧
    addWithCarry cfg .implied s = raiseFault (.unsupportedAddressingMode Mode.implied.tag) s

/-- TransferAccumulatorToX (45_register_ops.md) completes in every state: X is A, Zero and Negative are from the new X (the spec's decision
D7, log 6), nothing else changes. -/
def Obligations.TransferAccumulatorToXSetsXAndZN : Prop :=
  ∀ s : State, ∃ t, exec .tax s = .next t ∧ t.x = s.a ∧ ZnWritten s.a s.p t.p ∧
    t.a = s.a ∧ t.y = s.y ∧ t.pc = s.pc ∧ t.phase = s.phase ∧ SameMemory s t

/-- IncrementX (45_register_ops.md) completes in every state: X is X + 1 modulo 256, Zero and Negative are from the new X and not from A
(the spec's decision D7, log 6), Carry and Overflow included nothing else changes. -/
def Obligations.IncrementXWrapsAndSetsZN : Prop :=
  ∀ s : State, ∃ t, exec .inx s = .next t ∧ t.x.toNat = (s.x.toNat + 1) % 256 ∧ ZnWritten t.x s.p t.p ∧
    t.a = s.a ∧ t.y = s.y ∧ t.pc = s.pc ∧ t.phase = s.phase ∧ SameMemory s t

/-- Break (46_system.md) completes in every state by halting the engine; no register, flag or byte of memory changes, and a step that runs
it leaves the program counter at the byte after the opcode (the spec's decision D15, log 12). -/
def Obligations.BreakHaltsAndChangesNothingElse : Prop :=
  ∀ s : State,
    (∃ t, exec .brk s = .next t ∧ t.phase = .halted ∧ SameRegisters s t ∧ SameMemory s t) ∧
    (s.phase = .fetch → s.mem.readByte s.pc = 0x00 →
      ∃ t, step s = .next t ∧ t.phase = .halted ∧ t.pc.toNat = (s.pc.toNat + 1) % 65536 ∧
        t.a = s.a ∧ t.x = s.x ∧ t.y = s.y ∧ t.p = s.p ∧ SameMemory s t)

/-! ## The step -/

/-- When the engine is in Fetch and the bytes at the program counter decode to a well-formed instruction i, the step is `exec i` in the
state after the fetch increment, which answers a next state and leaves pc alone, and then: a halted engine is left as it is; else pc skips
the operand bytes and the engine is in Fetch again. -/
def Obligations.StepRunsTheDecodedInstruction : Prop :=
  ∀ (s : State) (i : Instr) (rest : List Byte), s.phase = .fetch → i.wf = true →
    decode [s.mem.readByte s.pc, s.mem.readByte (s.pc + 1), s.mem.readByte (s.pc + 2)] = .ok (i, rest) →
    ∃ t, exec i { s with pc := s.pc + 1 } = .next t ∧ t.pc = s.pc + 1 ∧
      (t.phase = .halted → step s = .next t) ∧
      (t.phase ≠ .halted → step s = .next { t with pc := t.pc + BitVec.ofNat 16 (i.length - 1), phase := .fetch })

/-- The advance compares program counters, nothing more (42_execution_engine.md, "Program-counter advance after the handler"; the spec's
decision D23, log 25): in any configuration with a well-formed table, where the handler of an executing instruction answers t, a halted
engine is left as t is; else pc skips the operand bytes if t's pc equals the one captured before dispatch, and is left alone if not. -/
def Obligations.AdvanceSkipsOperandsUnlessPcMoved : Prop :=
  ∀ (cfg : Config) (s t : State) (op : Byte) (d : Descriptor) (pcb : Addr), cfg.optab.wf = true → s.phase = .execute op d pcb →
    handler cfg op d s = .next t →
    (t.phase = .halted → iteration cfg s = .next t) ∧
    (t.phase ≠ .halted → t.pc = pcb → iteration cfg s = .next { t with pc := t.pc + BitVec.ofNat 16 (d.length - 1), phase := .fetch }) ∧
    (t.phase ≠ .halted → t.pc ≠ pcb → iteration cfg s = .next { t with phase := .fetch })

/-- Over one step from Fetch at the encoding of any instruction but Break, the program counter advances by the instruction's length, modulo
65536, and the engine is again in Fetch (42_execution_engine.md, "Program-counter advance after the handler"). -/
def Obligations.ProgramCounterAdvancesByTheLength : Prop :=
  ∀ (s : State) (i : Instr) (rest : List Byte), s.phase = .fetch → decode s.instrBytes = .ok (i, rest) → i ≠ .brk →
    ∃ t, step s = .next t ∧ t.pc.toNat = (s.pc.toNat + i.length) % 65536 ∧ t.phase = .fetch

/-- An opcode byte that no instruction has raises UnsupportedOpcode with the byte, and the state it leaves differs from the one before only
in pc, one on, and in the phase that records the fault (60_exceptions.md, "The two faults" and "Delivery"; delivery and state are the
spec's decision D12, log 10). -/
def Obligations.UnsupportedOpcodeFaultIsPrecise : Prop :=
  ∀ s : State, s.phase = .fetch → (∀ i : Instr, i.opcode ≠ s.mem.readByte s.pc) →
    step s = .fault (.unsupportedOpcode (s.mem.readByte s.pc)
      { s with pc := s.pc + 1, phase := .faulted (.unsupportedOpcode (s.mem.readByte s.pc)) })

/-- Nothing else faults (60_exceptions.md R178): from Fetch, a step answers a next state exactly where the opcode byte has a row, whatever
the operand bytes, the registers and memory hold. -/
def Obligations.StepFromFetchCompletesExactlyOnSupportedBytes : Prop :=
  ∀ s : State, s.phase = .fetch → ((∃ t, step s = .next t) ↔ ∃ i : Instr, i.opcode = s.mem.readByte s.pc)

/-- The machine refuses nothing: no step of any state, in any phase, is a refusal. -/
def Obligations.StepNeverRefuses : Prop :=
  ∀ (s : State) (r : Refusal), step s ≠ .refused r

/-- A halted engine stays as it is (42_execution_engine.md: "no further fetch happens"; that a step of it idles is the model's reading, log
12), and a faulted one keeps its fault through every later step (60_exceptions.md: "never clears it by a later step of the same run"). -/
def Obligations.HaltAndFaultAreFinalForTheRun : Prop :=
  ∀ (s : State) (b : Byte) (tag : BitVec 4),
    (s.phase = .halted → step s = .next s) ∧
    (s.phase = .faulted (.unsupportedOpcode b) → step s = .fault (.unsupportedOpcode b s)) ∧
    (s.phase = .faulted (.unsupportedAddressingMode tag) → step s = .fault (.unsupportedAddressingMode tag s))

/-- Two designs agree on every state: the step, which decodes the bytes and runs `exec` on the operand they carry, and the engine of
42_execution_engine.md R116, which goes through Fetch, Decode and Execute by table lookup and resolver. -/
def Obligations.StepAgreesWithTheTableDrivenEngine : Prop :=
  ∀ s : State, step s = iteration chosen s

/-- In every configuration with a well-formed table, an instruction with an operand whose descriptor says Implied faults at Execute with
nothing written but the phase that records the fault (60_exceptions.md, "The two faults"; the state left is marked derived there). -/
def Obligations.ImpliedOperandFaultsBeforeAnyWrite : Prop :=
  ∀ (cfg : Config) (s : State) (op : Byte) (d : Descriptor) (pcb : Addr), cfg.optab.wf = true → s.phase = .execute op d pcb →
    d.mode = .implied →
    (d.mnemonic = .loadAccumulator ∨ d.mnemonic = .storeAccumulator ∨ d.mnemonic = .addWithCarry) →
    iteration cfg s = .fault (.unsupportedAddressingMode 9 { s with phase := .faulted (.unsupportedAddressingMode 9) })

/-- What a table can have wrong (30_encoding.md, "Descriptor and mode tag"; the spec's decisions D13 and D14, log 11): a row whose identity
has no handler is as if absent, and a table that is not well formed is refused. -/
def Obligations.TableDefectsFaultOrAreRefused : Prop :=
  ∀ (cfg : Config) (s : State) (op : Byte) (d : Descriptor) (id : Nat),
    (cfg.optab.wf = true → s.phase = .decode op → cfg.optab.find op = some d → d.mnemonic = .other id →
      iteration cfg s = .fault (.unsupportedOpcode op { s with phase := .faulted (.unsupportedOpcode op) })) ∧
    (cfg.optab.wf = false → iteration cfg s = .refused .illFormedTable)

/-- A table may give StoreAccumulator the mode Immediate, for which the default table has no row: in every configuration with a well-formed
table, one iteration of the engine there overwrites the instruction's own byte 1 with A (43_load_store.md, corner cases of
StoreAccumulator, marked derived there) and goes on after it. -/
def Obligations.StoreThroughImmediateOverwritesItsOwnOperand : Prop :=
  ∀ (cfg : Config) (s : State) (d : Descriptor), cfg.optab.wf = true → s.phase = .fetch →
    cfg.optab.find (s.mem.readByte s.pc) = some d → d.mnemonic = .storeAccumulator → d.mode = .immediate →
    iteration cfg s = .next { s with mem := s.mem.writeByte (s.pc + 1) s.a, pc := s.pc + 2 }

/-! ## Rules of the whole machine -/

/-- Every step keeps memory in canonical form, from every state and in every phase (the model's representation, log 21). -/
def Obligations.StepKeepsMemoryCanonical : Prop :=
  ∀ s t : State, s.mem.wf = true → step s = .next t → t.mem.wf = true

/-- The host's calls keep memory in canonical form (log 21). -/
def Obligations.HostCallsKeepMemoryCanonical : Prop :=
  ∀ (cfg : Config) (s t : State) (image : List Byte) (addr v : Addr) (b : Byte), s.mem.wf = true →
    (load image s = .next t → t.mem.wf = true) ∧
    (hostWriteWord cfg addr v s = .ok t → t.mem.wf = true) ∧
    (hostWriteByte addr b s).mem.wf = true ∧ (hostReset cfg s).mem.wf = true

/-- No step leaves Zero and Negative both set that found them not both set (10_state.md R23, the part marked derived), in every phase. -/
def Obligations.StepKeepsZeroAndNegativeExclusive : Prop :=
  ∀ s t : State, ZnExclusive s → step s = .next t → ZnExclusive t

/-- The state after reset meets both invariants; Zero and Negative there are the model's RESET_FLAGS (log 1). -/
def Obligations.ResetStateMeetsTheInvariants : Prop :=
  State.reset.mem.wf = true ∧ ZnExclusive State.reset ∧ ∀ addr, State.reset.mem.readByte addr = 0x00

/-- No step writes Y, InterruptDisable, DecimalMode, Break or Break2, along any number of steps, from every state and in every phase
(10_state.md, "Who writes what", and the rules of those flags). -/
def Obligations.NoStepsWriteTheInertFlagsOrY : Prop :=
  ∀ s t : State, Reaches s t → SameInert s t

/-- Only StoreAccumulator writes memory (10_state.md, "Who writes what"): over a step that runs any other instruction every byte reads as
before. -/
def Obligations.OnlyStoreAccumulatorWritesMemory : Prop :=
  ∀ (s t : State) (i : Instr) (rest : List Byte), s.phase = .fetch → decode s.instrBytes = .ok (i, rest) →
    i.mnemonic ≠ .storeAccumulator → step s = .next t → SameMemory s t

/-- Only AddWithCarry writes Carry and Overflow, and only it, LoadAccumulator, TransferAccumulatorToX and IncrementX write any flag
(10_state.md, "Who writes what"). -/
def Obligations.FlagWritersAreThoseOfTheTable : Prop :=
  ∀ (s t : State) (i : Instr) (rest : List Byte), s.phase = .fetch → decode s.instrBytes = .ok (i, rest) → step s = .next t →
    (i.mnemonic ≠ .addWithCarry → flagOf t.p .carry = flagOf s.p .carry ∧ flagOf t.p .overflow = flagOf s.p .overflow) ∧
    ((i.mnemonic = .storeAccumulator ∨ i.mnemonic = .brk) → t.p = s.p)

/-- A store is seen by the very next fetch (20_memory.md, "Ordering", marked derived there): if a StoreAccumulator of mode Absolute stores
to the address of the next instruction, the next step fetches the stored byte as its opcode: it completes if some instruction has that
opcode byte and faults with that byte otherwise. -/
def Obligations.StoredByteIsTheNextOpcodeFetched : Prop :=
  ∀ (s : State) (rest : List Byte), s.mem.wf = true → s.phase = .fetch →
    decode s.instrBytes = .ok (.staAbsolute (s.pc + 3), rest) →
    ∃ t, step s = .next t ∧ t.fetchOpcode = s.a ∧
      ((∀ i : Instr, i.opcode ≠ s.a) → ∃ u, step t = .fault (.unsupportedOpcode s.a u)) ∧
      ((∃ i : Instr, i.opcode = s.a) → ∃ u, step t = .next u)

/-! ## Host calls -/

/-- `reset()` in every configuration (70_reset_and_hazards.md, "The host's calls"): A and X zero, Y zero when RESET_CLEARS_Y and unchanged
otherwise (the spec's decision D9, log 8), P the open RESET_FLAGS (D10), pc the little-endian word at 0xFFFC, memory unchanged. -/
def Obligations.ResetLoadsTheVectorAndTheFlagPattern : Prop :=
  ∀ (cfg : Config) (s : State),
    (hostReset cfg s).a = 0 ∧ (hostReset cfg s).x = 0 ∧
    (cfg.resetClearsY = true → (hostReset cfg s).y = 0) ∧ (cfg.resetClearsY = false → (hostReset cfg s).y = s.y) ∧
    (hostReset cfg s).p = cfg.resetFlags ∧
    (hostReset cfg s).pc.toNat = (s.mem.readByte 0xFFFC).toNat + 256 * (s.mem.readByte 0xFFFD).toNat ∧
    SameMemory s (hostReset cfg s)

/-- Two consecutive resets leave what one leaves (70_reset_and_hazards.md R197), in every configuration. -/
def Obligations.ResetIsIdempotent : Prop :=
  ∀ (cfg : Config) (s : State), hostReset cfg (hostReset cfg s) = hostReset cfg s

/-- `State.reset` is construction followed by `reset()` with the chosen parameters; its P is the model's RESET_FLAGS, 0x24 (log 1). -/
def Obligations.ResetStateIsConstructionThenReset : Prop :=
  State.reset = hostReset chosen construct ∧ (∀ addr, construct.mem.readByte addr = 0x00) ∧
    construct.a = 0 ∧ construct.x = 0 ∧ construct.y = 0 ∧ construct.pc = 0 ∧ construct.p = 0

/-- `load` of an image of at most 0x8000 bytes puts it at 0x8000 and then 0x00, 0x80 at the reset vector, over the image where they meet,
and changes no other byte and no register (70_reset_and_hazards.md, "The host's calls"; order and bound are the spec's decision D17, log
14); a longer image is refused. -/
def Obligations.LoadPlacesTheImageAndTheVector : Prop :=
  ∀ (image : List Byte) (s : State), s.mem.wf = true →
    (0x8000 < image.length → load image s = .refused .imageTooLong) ∧
    (image.length ≤ 0x8000 → ∃ t, load image s = .next t ∧ SameRegisters s t ∧ t.phase = s.phase ∧
      t.mem.readByte 0xFFFC = 0x00 ∧ t.mem.readByte 0xFFFD = 0x80 ∧
      (∀ (k : Nat) (b : Byte), image[k]? = some b → k ≠ 0x7FFC → k ≠ 0x7FFD →
        t.mem.readByte (BitVec.ofNat 16 (0x8000 + k)) = b) ∧
      (∀ addr : Addr, addr ≠ 0xFFFC → addr ≠ 0xFFFD → (addr.toNat < 0x8000 ∨ 0x8000 + image.length ≤ addr.toNat) →
        t.mem.readByte addr = s.mem.readByte addr))

/-- What a run started by `loadAndRun` starts from (70_reset_and_hazards.md, "The host's calls"): after load and reset, from any state, pc is
0x8000, A, X and Y are 0, P is RESET_FLAGS. -/
def Obligations.LoadThenResetStartsAtTheOrigin : Prop :=
  ∀ (image : List Byte) (s t : State) (cfg : Config), s.mem.wf = true → load image s = .next t → cfg.resetClearsY = true →
    (hostReset cfg t).pc = 0x8000 ∧ (hostReset cfg t).a = 0 ∧ (hostReset cfg t).x = 0 ∧ (hostReset cfg t).y = 0 ∧
      (hostReset cfg t).p = cfg.resetFlags

/-- A run's end does not depend on the budget once it is reached, and does not depend on how the last run ended (42_execution_engine.md,
"The run"; 70_reset_and_hazards.md, run: repeated runs are the spec's decision D16, log 13; the budget is the model's, log 22). -/
def Obligations.RunEndIsStableAndForgetsTheLastRun : Prop :=
  ∀ (n k : Nat) (s : State) (ph : Phase) (r : RunResult),
    run n { s with phase := ph } = run n s ∧
    ((∀ u, run n s ≠ .unfinished u) → run n s = r → run (n + k) s = r)

/-- Where a run halts, its last step ran Break: the end state is in Halted and the byte before its pc, where the last fetch was, is 0x00
(42_execution_engine.md, "Halt"). -/
def Obligations.HaltedRunsEndJustAfterABreak : Prop :=
  ∀ (n : Nat) (s t : State), run n s = .halted t → t.phase = .halted ∧ t.mem.readByte (t.pc - 1) = 0x00

/-- A word of the opcode table placed where the machine fetches is what the next step runs (the host's hook, log 19). -/
def Obligations.PlacedWordIsTheInstructionRun : Prop :=
  ∀ (s : State) (nbits w : Nat) (i : Instr), s.mem.wf = true → decodeTableWord nbits w = some i →
    step (s.withFetchWord nbits w) = runInstr i (s.withFetchWord nbits w) ∧ (s.withFetchWord nbits w).pc = s.pc
end

