-- ==== Sys2Proof/Laws/State.lean ====
section
/-! SUPPORT. Laws/State.lean: what each field is after each update of the state. -/

namespace Sys2Proof.Machine

variable (s : State)

@[simp] theorem State.setA_a (v : Byte) : (s.setA v).a = v := rfl
@[simp] theorem State.setA_x (v : Byte) : (s.setA v).x = s.x := rfl
@[simp] theorem State.setA_y (v : Byte) : (s.setA v).y = s.y := rfl
@[simp] theorem State.setA_pc (v : Byte) : (s.setA v).pc = s.pc := rfl
@[simp] theorem State.setA_p (v : Byte) : (s.setA v).p = s.p := rfl
@[simp] theorem State.setA_mem (v : Byte) : (s.setA v).mem = s.mem := rfl
@[simp] theorem State.setA_phase (v : Byte) : (s.setA v).phase = s.phase := rfl

@[simp] theorem State.setX_a (v : Byte) : (s.setX v).a = s.a := rfl
@[simp] theorem State.setX_x (v : Byte) : (s.setX v).x = v := rfl
@[simp] theorem State.setX_y (v : Byte) : (s.setX v).y = s.y := rfl
@[simp] theorem State.setX_pc (v : Byte) : (s.setX v).pc = s.pc := rfl
@[simp] theorem State.setX_p (v : Byte) : (s.setX v).p = s.p := rfl
@[simp] theorem State.setX_mem (v : Byte) : (s.setX v).mem = s.mem := rfl
@[simp] theorem State.setX_phase (v : Byte) : (s.setX v).phase = s.phase := rfl

@[simp] theorem State.setY_a (v : Byte) : (s.setY v).a = s.a := rfl
@[simp] theorem State.setY_x (v : Byte) : (s.setY v).x = s.x := rfl
@[simp] theorem State.setY_y (v : Byte) : (s.setY v).y = v := rfl
@[simp] theorem State.setY_pc (v : Byte) : (s.setY v).pc = s.pc := rfl
@[simp] theorem State.setY_p (v : Byte) : (s.setY v).p = s.p := rfl
@[simp] theorem State.setY_mem (v : Byte) : (s.setY v).mem = s.mem := rfl
@[simp] theorem State.setY_phase (v : Byte) : (s.setY v).phase = s.phase := rfl

@[simp] theorem State.setPc_a (v : Addr) : (s.setPc v).a = s.a := rfl
@[simp] theorem State.setPc_x (v : Addr) : (s.setPc v).x = s.x := rfl
@[simp] theorem State.setPc_y (v : Addr) : (s.setPc v).y = s.y := rfl
@[simp] theorem State.setPc_pc (v : Addr) : (s.setPc v).pc = v := rfl
@[simp] theorem State.setPc_p (v : Addr) : (s.setPc v).p = s.p := rfl
@[simp] theorem State.setPc_mem (v : Addr) : (s.setPc v).mem = s.mem := rfl
@[simp] theorem State.setPc_phase (v : Addr) : (s.setPc v).phase = s.phase := rfl

@[simp] theorem State.setP_a (v : Byte) : (s.setP v).a = s.a := rfl
@[simp] theorem State.setP_x (v : Byte) : (s.setP v).x = s.x := rfl
@[simp] theorem State.setP_y (v : Byte) : (s.setP v).y = s.y := rfl
@[simp] theorem State.setP_pc (v : Byte) : (s.setP v).pc = s.pc := rfl
@[simp] theorem State.setP_p (v : Byte) : (s.setP v).p = v := rfl
@[simp] theorem State.setP_mem (v : Byte) : (s.setP v).mem = s.mem := rfl
@[simp] theorem State.setP_phase (v : Byte) : (s.setP v).phase = s.phase := rfl

@[simp] theorem State.setMem_a (v : Memory) : (s.setMem v).a = s.a := rfl
@[simp] theorem State.setMem_x (v : Memory) : (s.setMem v).x = s.x := rfl
@[simp] theorem State.setMem_y (v : Memory) : (s.setMem v).y = s.y := rfl
@[simp] theorem State.setMem_pc (v : Memory) : (s.setMem v).pc = s.pc := rfl
@[simp] theorem State.setMem_p (v : Memory) : (s.setMem v).p = s.p := rfl
@[simp] theorem State.setMem_mem (v : Memory) : (s.setMem v).mem = v := rfl
@[simp] theorem State.setMem_phase (v : Memory) : (s.setMem v).phase = s.phase := rfl

@[simp] theorem State.setPhase_a (v : Phase) : (s.setPhase v).a = s.a := rfl
@[simp] theorem State.setPhase_x (v : Phase) : (s.setPhase v).x = s.x := rfl
@[simp] theorem State.setPhase_y (v : Phase) : (s.setPhase v).y = s.y := rfl
@[simp] theorem State.setPhase_pc (v : Phase) : (s.setPhase v).pc = s.pc := rfl
@[simp] theorem State.setPhase_p (v : Phase) : (s.setPhase v).p = s.p := rfl
@[simp] theorem State.setPhase_mem (v : Phase) : (s.setPhase v).mem = s.mem := rfl
@[simp] theorem State.setPhase_phase (v : Phase) : (s.setPhase v).phase = v := rfl

@[simp] theorem State.afterFetch_a : s.afterFetch.a = s.a := rfl
@[simp] theorem State.afterFetch_x : s.afterFetch.x = s.x := rfl
@[simp] theorem State.afterFetch_y : s.afterFetch.y = s.y := rfl
@[simp] theorem State.afterFetch_pc : s.afterFetch.pc = s.pc + 1 := rfl
@[simp] theorem State.afterFetch_p : s.afterFetch.p = s.p := rfl
@[simp] theorem State.afterFetch_mem : s.afterFetch.mem = s.mem := rfl
@[simp] theorem State.afterFetch_phase : s.afterFetch.phase = s.phase := rfl

@[simp] theorem State.startRun_a : s.startRun.a = s.a := rfl
@[simp] theorem State.startRun_x : s.startRun.x = s.x := rfl
@[simp] theorem State.startRun_y : s.startRun.y = s.y := rfl
@[simp] theorem State.startRun_pc : s.startRun.pc = s.pc := rfl
@[simp] theorem State.startRun_p : s.startRun.p = s.p := rfl
@[simp] theorem State.startRun_mem : s.startRun.mem = s.mem := rfl
@[simp] theorem State.startRun_phase : s.startRun.phase = .fetch := rfl

/-- A halted phase is the phase `halted`. -/
@[simp] theorem Phase.isHalted_iff (ph : Phase) : ph.isHalted = true ↔ ph = .halted := by
  cases ph <;> simp [Phase.isHalted]

end Sys2Proof.Machine
end

