-- ==== Sys2Proof/Laws/Memory.lean ====
section
/-! SUPPORT. Laws/Memory.lean: every memory operation keeps the canonical form; a read after a write. -/

namespace Sys2Proof.Machine

/-! ## The canonical form -/

@[simp] theorem Memory.wf_nil : Memory.wf [] = true := rfl

theorem Memory.wfFrom_cons {lo k : Nat} {v : Byte} {rest : Memory} :
    Memory.wfFrom lo ((k, v) :: rest) = true ↔
      lo ≤ k ∧ k < 65536 ∧ v ≠ Memory.unlisted ∧ Memory.wfFrom (k + 1) rest = true := by
  simp [Memory.wfFrom, and_assoc]

theorem Memory.wfFrom_mono {lo hi : Nat} {m : Memory} (h : Memory.wfFrom hi m = true) (hle : lo ≤ hi) :
    Memory.wfFrom lo m = true := by
  cases m with
  | nil => rfl
  | cons c rest =>
    rw [Memory.wfFrom_cons] at h ⊢
    exact ⟨hle.trans h.1, h.2⟩

theorem Memory.wfFrom_consCell {lo k : Nat} {v : Byte} {rest : Memory} (hlo : lo ≤ k) (hk : k < 65536)
    (h : Memory.wfFrom (k + 1) rest = true) : Memory.wfFrom lo (Memory.consCell k v rest) = true := by
  unfold Memory.consCell
  split
  · exact Memory.wfFrom_mono h (by omega)
  · exact Memory.wfFrom_cons.mpr ⟨hlo, hk, ‹_›, h⟩

theorem Memory.wfFrom_put {lo k : Nat} {v : Byte} {m : Memory} (h : Memory.wfFrom lo m = true) (hlo : lo ≤ k)
    (hk : k < 65536) : Memory.wfFrom lo (m.put k v) = true := by
  induction m generalizing lo with
  | nil => exact Memory.wfFrom_consCell hlo hk rfl
  | cons c rest ih =>
    obtain ⟨k', v'⟩ := c
    have ⟨h1, h2, h3, h4⟩ := Memory.wfFrom_cons.mp h
    simp only [Memory.put]
    split
    · exact Memory.wfFrom_consCell hlo hk (Memory.wfFrom_cons.mpr ⟨by omega, h2, h3, h4⟩)
    · split
      · subst k
        exact Memory.wfFrom_consCell hlo hk h4
      · exact Memory.wfFrom_cons.mpr ⟨h1, h2, h3, ih h4 (by omega)⟩

theorem Memory.wf_writeByte {m : Memory} (h : m.wf = true) (addr : Addr) (v : Byte) : (m.writeByte addr v).wf = true :=
  Memory.wfFrom_put h (Nat.zero_le _) addr.isLt

theorem Memory.wf_writeWord {m : Memory} (h : m.wf = true) (addr v : Addr) : (m.writeWord addr v).wf = true :=
  Memory.wf_writeByte (Memory.wf_writeByte h _ _) _ _

theorem Memory.wf_placeBytes {m : Memory} (h : m.wf = true) (addr : Addr) (image : List Byte) :
    (m.placeBytes addr image).wf = true := by
  induction image generalizing m addr with
  | nil => exact h
  | cons b rest ih => exact ih (Memory.wf_writeByte h _ _) _

/-! ## Reading -/

theorem Memory.get_of_lt {lo k : Nat} {m : Memory} (h : Memory.wfFrom lo m = true) (hk : k < lo) :
    m.get k = Memory.unlisted := by
  induction m generalizing lo with
  | nil => rfl
  | cons c rest ih =>
    obtain ⟨k', v'⟩ := c
    have ⟨h1, _, _, h4⟩ := Memory.wfFrom_cons.mp h
    have hne : k' ≠ k := by omega
    simp only [Memory.get, hne, if_false]
    exact ih h4 (by omega)

theorem Memory.get_consCell_ne {k j : Nat} {v : Byte} {rest : Memory} (h : j ≠ k) :
    (Memory.consCell k v rest).get j = rest.get j := by
  unfold Memory.consCell
  split
  · rfl
  · simp [Memory.get, Ne.symm h]

theorem Memory.get_consCell_same {k : Nat} {v : Byte} {rest : Memory} (h : Memory.wfFrom (k + 1) rest = true) :
    (Memory.consCell k v rest).get k = v := by
  unfold Memory.consCell
  split
  · next hv => rw [hv]; exact Memory.get_of_lt h (Nat.lt_succ_self k)
  · simp [Memory.get]

/-- A write leaves every other key as it was; this needs no canonical form. -/
theorem Memory.get_put_ne {k j : Nat} {v : Byte} {m : Memory} (h : j ≠ k) : (m.put k v).get j = m.get j := by
  induction m with
  | nil => exact Memory.get_consCell_ne h
  | cons c rest ih =>
    obtain ⟨k', v'⟩ := c
    simp only [Memory.put]
    split
    · exact Memory.get_consCell_ne h
    · split
      · rw [Memory.get_consCell_ne h]; subst k; simp [Memory.get, Ne.symm h]
      · simp only [Memory.get, ih]

theorem Memory.get_put_same {lo k : Nat} {v : Byte} {m : Memory} (h : Memory.wfFrom lo m = true) :
    (m.put k v).get k = v := by
  induction m generalizing lo with
  | nil => exact Memory.get_consCell_same rfl
  | cons c rest ih =>
    obtain ⟨k', v'⟩ := c
    have ⟨h1, h2, h3, h4⟩ := Memory.wfFrom_cons.mp h
    simp only [Memory.put]
    split
    · exact Memory.get_consCell_same (Memory.wfFrom_cons.mpr ⟨by omega, h2, h3, h4⟩)
    · split
      · subst k; exact Memory.get_consCell_same h4
      · next hne => simp only [Memory.get, Ne.symm hne, if_false]; exact ih h4

@[simp] theorem Memory.readByte_nil (addr : Addr) : Memory.readByte [] addr = 0x00 := rfl

theorem Memory.readByte_writeByte_same {m : Memory} (h : m.wf = true) (addr : Addr) (v : Byte) :
    (m.writeByte addr v).readByte addr = v := Memory.get_put_same h

theorem Memory.readByte_writeByte_ne {m : Memory} {addr other : Addr} (h : other ≠ addr) (v : Byte) :
    (m.writeByte addr v).readByte other = m.readByte other :=
  Memory.get_put_ne fun he => h (BitVec.eq_of_toNat_eq he)

theorem addr_add_one_ne (addr : Addr) : addr + 1 ≠ addr := by
  intro h
  have := congrArg BitVec.toNat h
  simp [BitVec.toNat_add] at this
  omega

/-- The two bytes of a word and every byte outside it, after a word write. -/
theorem Memory.readByte_writeWord {m : Memory} (h : m.wf = true) (addr v : Addr) :
    (m.writeWord addr v).readByte addr = lowByte v ∧ (m.writeWord addr v).readByte (addr + 1) = highByte v ∧
      ∀ other, other ≠ addr → other ≠ addr + 1 → (m.writeWord addr v).readByte other = m.readByte other := by
  refine ⟨?_, Memory.readByte_writeByte_same (Memory.wf_writeByte h _ _) _ _, fun other h1 h2 => ?_⟩
  · exact (Memory.readByte_writeByte_ne (Ne.symm (addr_add_one_ne addr)) _).trans (Memory.readByte_writeByte_same h _ _)
  · exact (Memory.readByte_writeByte_ne h2 _).trans (Memory.readByte_writeByte_ne h1 _)

/-! ## Bytes and words -/

theorem pair_toNat (hi lo : Byte) : (pair hi lo).toNat = lo.toNat + 256 * hi.toNat := by
  have h : (pair hi lo).toNat = hi.toNat <<< 8 ||| lo.toNat := BitVec.toNat_append hi lo
  rw [h, ← Nat.shiftLeft_add_eq_or_of_lt lo.isLt, Nat.shiftLeft_eq]
  omega

theorem lowByte_toNat (w : Addr) : (lowByte w).toNat = w.toNat % 256 := by
  simp [lowByte, BitVec.extractLsb'_toNat]

theorem highByte_toNat (w : Addr) : (highByte w).toNat = w.toNat / 256 := by
  have := w.isLt
  simp only [highByte, BitVec.extractLsb'_toNat, Nat.shiftRight_eq_div_pow]
  omega

@[simp] theorem pair_high_low (w : Addr) : pair (highByte w) (lowByte w) = w := by
  apply BitVec.eq_of_toNat_eq
  rw [pair_toNat, lowByte_toNat, highByte_toNat]
  omega

@[simp] theorem lowByte_pair (hi lo : Byte) : lowByte (pair hi lo) = lo := by
  have := lo.isLt
  apply BitVec.eq_of_toNat_eq
  rw [lowByte_toNat, pair_toNat]
  omega

@[simp] theorem highByte_pair (hi lo : Byte) : highByte (pair hi lo) = hi := by
  have := lo.isLt
  apply BitVec.eq_of_toNat_eq
  rw [highByte_toNat, pair_toNat]
  omega

@[simp] theorem zext16_toNat (b : Byte) : (zext16 b).toNat = b.toNat := by
  have := b.isLt
  simp only [zext16, BitVec.toNat_setWidth]
  omega

end Sys2Proof.Machine
end

