-- ==== Sys2Proof/Laws/Decode.lean ====
section
/-! SUPPORT. Laws/Decode.lean: the opcode table, the decoder and the encoder, row by row. -/

namespace Sys2Proof

open Sys2Proof.Machine

/-- The first of the table's 26 rows that has the byte, as a case list: whatever the table finds is one of its rows. -/
theorem OpTable.find_mem {t : OpTable} {b : Byte} {d : Descriptor} (h : t.find b = some d) : (b, d) ∈ t := by
  induction t with
  | nil => cases h
  | cons r rest ih =>
    obtain ⟨k, e⟩ := r
    simp only [OpTable.find] at h
    split at h
    · next hk => cases h; rw [hk]; exact List.mem_cons_self
    · exact List.mem_cons_of_mem _ (ih h)

/-- The table's row of an instruction's opcode byte is that instruction's descriptor. -/
theorem find_opcode (i : Instr) : opcodeTable.find i.opcode = some i.descriptor := by cases i <;> rfl

/-- An instruction is decoded from its opcode byte and its operand bytes, whatever stands in the bytes it does not use. -/
theorem instrOf_operand (i : Instr) (rest : List Byte) :
    instrOf i.mnemonic i.mode ((i.operand ++ rest).getD 0 0) ((i.operand ++ rest).getD 1 0) = some i := by
  cases i <;> simp [Instr.mnemonic, Instr.mode, Instr.operand, instrOf]

theorem operand_length (i : Instr) : i.operand.length = i.length - 1 := by cases i <;> rfl

theorem instr_length_pos (i : Instr) : 1 ≤ i.length := Nat.le_add_right 1 _

theorem encode_length (i : Instr) : (encode i).length = i.length := by
  have := instr_length_pos i
  simp [encode, operand_length]
  omega

/-- Every instruction is well formed (30_encoding.md R59: operand bytes are unconstrained). -/
theorem instr_wf (i : Instr) : i.wf = true := by
  simp [Instr.wf, Descriptor.wf, Instr.descriptor, Instr.length, encode_length]

/-- The operand bytes that `instrOf` assembled are the operand of the instruction it gave. -/
theorem operand_of_instrOf {mn : Mnemonic} {mode : Mode} {b1 b2 : Byte} {i : Instr} (h : instrOf mn mode b1 b2 = some i) :
    i.mnemonic = mn ∧ i.mode = mode ∧ i.operand = [b1, b2].take mode.operandBytes := by
  cases mn <;> cases mode <;> simp only [instrOf, Option.some.injEq, reduceCtorEq] at h <;> subst h <;>
    simp [Instr.mnemonic, Instr.mode, Instr.operand, Mode.operandBytes]

/-- Every row of the default table decodes, whatever the bytes after it, to an instruction with that row's opcode byte. -/
theorem rows_decode (b1 b2 : Byte) :
    ∀ r ∈ opcodeTable, ∃ i, instrOf r.2.mnemonic r.2.mode b1 b2 = some i ∧ i.opcode = r.1 := by
  simp [opcodeTable, impliedRows, ldaRows, staRows, adcRows, tableRow, instrOf, Instr.opcode]

theorem instrOf_of_row {b : Byte} {d : Descriptor} (hd : opcodeTable.find b = some d) (b1 b2 : Byte) :
    ∃ i, instrOf d.mnemonic d.mode b1 b2 = some i ∧ i.opcode = b := rows_decode b1 b2 (b, d) (OpTable.find_mem hd)

theorem opcode_of_row {b b1 b2 : Byte} {d : Descriptor} {i : Instr} (hd : opcodeTable.find b = some d)
    (hi : instrOf d.mnemonic d.mode b1 b2 = some i) : i.opcode = b := by
  obtain ⟨j, hj, hb⟩ := instrOf_of_row hd b1 b2
  rw [hi, Option.some.injEq] at hj
  rw [hj, hb]

/-- What the decoder says of a nonempty list, by cases on the table's row for its first byte. -/
theorem decode_cons (b : Byte) (rest : List Byte) :
    decode (b :: rest) =
      match decodeBytes b (rest.getD 0 0) (rest.getD 1 0) with
      | none => .error (.unsupportedOpcode b)
      | some i => if rest.length < i.length - 1 then .error (.truncated b) else .ok (i, rest.drop (i.length - 1)) := rfl

/-- A byte with a row decodes to an instruction that has it as its opcode byte. -/
theorem decodeBytes_some {b b1 b2 : Byte} {i : Instr} (h : decodeBytes b b1 b2 = some i) :
    i.opcode = b ∧ i.operand = [b1, b2].take i.mode.operandBytes := by
  unfold decodeBytes at h
  cases hd : opcodeTable.find b with
  | none => simp [hd] at h
  | some d =>
    simp only [hd] at h
    have ho := operand_of_instrOf h
    exact ⟨opcode_of_row hd h, by rw [ho.2.1]; exact ho.2.2⟩

theorem decodeBytes_none {b b1 b2 : Byte} (h : decodeBytes b b1 b2 = none) (i : Instr) : i.opcode ≠ b := by
  intro hb
  unfold decodeBytes at h
  rw [← hb, find_opcode] at h
  obtain ⟨j, hj, _⟩ := instrOf_of_row (find_opcode i) b1 b2
  simp only [hj] at h
  cases h

end Sys2Proof
end

