-- ==== Sys2Proof/Laws/Flags.lean ====
section
/-! SUPPORT. Laws/Flags.lean: the flag-computation unit bit by bit. -/

namespace Sys2Proof.Machine

theorem flagInsert_bit (p : Byte) (f : BitVec 3) (k : Nat) :
    (flagInsert p f).getLsbD k = if k = f.toNat then true else p.getLsbD k := by
  have hf := f.isLt
  by_cases h : k = f.toNat
  · subst h; simp [flagInsert, show f.toNat < 8 by omega]
  · simp [flagInsert, h]; omega

theorem flagRemove_bit (p : Byte) (f : BitVec 3) (k : Nat) :
    (flagRemove p f).getLsbD k = if k = f.toNat then false else p.getLsbD k := by
  have hf := f.isLt
  by_cases h : k = f.toNat
  · subst h; simp [flagRemove]
  · rcases Nat.lt_or_ge k 8 with hk | hk
    · simp [flagRemove, h, hk]; omega
    · simp [flagRemove, h, hk]

theorem flagOf_insert (p : Byte) (f g : Flag) : flagOf (flagInsert p f.index) g = if g = f then true else flagOf p g := by
  unfold flagOf flagTest
  rw [flagInsert_bit]
  cases f <;> cases g <;> rfl

theorem flagOf_remove (p : Byte) (f g : Flag) : flagOf (flagRemove p f.index) g = if g = f then false else flagOf p g := by
  unfold flagOf flagTest
  rw [flagRemove_bit]
  cases f <;> cases g <;> rfl

/-- Writing a flag writes it and keeps the other seven. -/
theorem flagOf_setFlag (p : Byte) (f g : Flag) (b : Bool) : flagOf (setFlag p f b) g = if g = f then b else flagOf p g := by
  cases b
  · exact flagOf_remove p f g
  · exact flagOf_insert p f g

/-- UpdateZN flag by flag. -/
theorem flagOf_updateZN (p v : Byte) (g : Flag) :
    flagOf (updateZN p v) g = if g = .negative then v.getLsbD 7 else if g = .zero then v == 0 else flagOf p g := by
  simp only [updateZN, flagOf_setFlag]

/-- AddFlags flag by flag. -/
theorem flagOf_addFlags (policy : AdcOverflow) (p a m : Byte) (g : Flag) :
    flagOf (addFlags policy p a m) g =
      if g = .negative then (addResult a m (carryIn p)).getLsbD 7
      else if g = .zero then addResult a m (carryIn p) == 0
      else if g = .overflow then overflowOut policy p a m
      else if g = .carry then carryOut a m (carryIn p)
      else flagOf p g := by
  simp only [addFlags, flagOf_updateZN, flagOf_setFlag]

/-- A status byte is its eight flags. -/
theorem flags_ext {p q : Byte} (h : ∀ f, flagOf p f = flagOf q f) : p = q := by
  apply BitVec.eq_of_getLsbD_eq
  intro k hk
  match k, hk with
  | 0, _ => exact h .carry
  | 1, _ => exact h .zero
  | 2, _ => exact h .interruptDisable
  | 3, _ => exact h .decimalMode
  | 4, _ => exact h .brk
  | 5, _ => exact h .break2
  | 6, _ => exact h .overflow
  | 7, _ => exact h .negative

/-- The 9-bit sum is the sum of the numbers. -/
theorem sum9_toNat (a m : Byte) (cin : Bool) : (sum9 a m cin).toNat = a.toNat + m.toNat + cin.toNat := by
  have ha := a.isLt
  have hm := m.isLt
  have hc := cin.toNat_le
  simp only [sum9, BitVec.toNat_add, BitVec.toNat_setWidth, BitVec.toNat_ofBool]
  omega

theorem addResult_toNat (a m : Byte) (cin : Bool) : (addResult a m cin).toNat = (a.toNat + m.toNat + cin.toNat) % 256 := by
  simp only [addResult, BitVec.toNat_setWidth, sum9_toNat]

/-- Bit 7 of a byte is its sign: the byte is 128 or more. -/
theorem byte_bit7 (v : Byte) : v.getLsbD 7 = true ↔ 128 ≤ v.toNat := by
  have := v.isLt
  rw [BitVec.getLsbD, Nat.testBit_eq_decide_div_mod_eq, decide_eq_true_iff]
  omega

end Sys2Proof.Machine
end

