-- ==== Sys2Proof/Laws/Handlers.lean ====
section
/-! SUPPORT. Laws/Handlers.lean: what each shared operation of the handlers does, field by field, and everything a handler or `exec` can
do. -/

namespace Sys2Proof.Machine

variable (cfg : Config) (s : State) (v : Byte) (ea : Addr)

/-! ## The shared operations, field by field -/

@[simp] theorem State.updateZN_a : (s.updateZN cfg v).a = s.a := rfl
@[simp] theorem State.updateZN_x : (s.updateZN cfg v).x = s.x := rfl
@[simp] theorem State.updateZN_y : (s.updateZN cfg v).y = s.y := rfl
@[simp] theorem State.updateZN_pc : (s.updateZN cfg v).pc = s.pc := rfl
@[simp] theorem State.updateZN_mem : (s.updateZN cfg v).mem = s.mem := rfl
@[simp] theorem State.updateZN_phase : (s.updateZN cfg v).phase = s.phase := rfl
@[simp] theorem State.updateZN_p : (s.updateZN cfg v).p = Machine.updateZN s.p (znOperand cfg.znSource v s) := rfl

@[simp] theorem znOperand_produced : znOperand chosen.znSource v s = v := rfl

@[simp] theorem loadValue_a : (loadValue cfg v s).a = v := rfl
@[simp] theorem loadValue_x : (loadValue cfg v s).x = s.x := rfl
@[simp] theorem loadValue_y : (loadValue cfg v s).y = s.y := rfl
@[simp] theorem loadValue_pc : (loadValue cfg v s).pc = s.pc := rfl
@[simp] theorem loadValue_mem : (loadValue cfg v s).mem = s.mem := rfl
@[simp] theorem loadValue_phase : (loadValue cfg v s).phase = s.phase := rfl
/-- Either policy of U3 gives UpdateZN the loaded value: it is the new A. -/
@[simp] theorem loadValue_p : (loadValue cfg v s).p = Machine.updateZN s.p v := by
  unfold loadValue
  rw [State.updateZN_p]
  cases cfg.znSource <;> rfl

@[simp] theorem storeTo_a : (storeTo ea s).a = s.a := rfl
@[simp] theorem storeTo_x : (storeTo ea s).x = s.x := rfl
@[simp] theorem storeTo_y : (storeTo ea s).y = s.y := rfl
@[simp] theorem storeTo_pc : (storeTo ea s).pc = s.pc := rfl
@[simp] theorem storeTo_p : (storeTo ea s).p = s.p := rfl
@[simp] theorem storeTo_mem : (storeTo ea s).mem = s.mem.writeByte ea s.a := rfl
@[simp] theorem storeTo_phase : (storeTo ea s).phase = s.phase := rfl

@[simp] theorem addValue_a : (addValue cfg v s).a = addResult s.a v (carryIn s.p) := rfl
@[simp] theorem addValue_x : (addValue cfg v s).x = s.x := rfl
@[simp] theorem addValue_y : (addValue cfg v s).y = s.y := rfl
@[simp] theorem addValue_pc : (addValue cfg v s).pc = s.pc := rfl
@[simp] theorem addValue_p : (addValue cfg v s).p = addFlags cfg.adcOverflow s.p s.a v := rfl
@[simp] theorem addValue_mem : (addValue cfg v s).mem = s.mem := rfl
@[simp] theorem addValue_phase : (addValue cfg v s).phase = s.phase := rfl

@[simp] theorem produceX_a : (produceX cfg v s).a = s.a := rfl
@[simp] theorem produceX_x : (produceX cfg v s).x = v := rfl
@[simp] theorem produceX_y : (produceX cfg v s).y = s.y := rfl
@[simp] theorem produceX_pc : (produceX cfg v s).pc = s.pc := rfl
@[simp] theorem produceX_mem : (produceX cfg v s).mem = s.mem := rfl
@[simp] theorem produceX_phase : (produceX cfg v s).phase = s.phase := rfl
@[simp] theorem produceX_p_chosen : (produceX chosen v s).p = Machine.updateZN s.p v := rfl

@[simp] theorem breakHalt_eq : breakHalt s = s.setPhase .halted := rfl

/-! ## Everything a handler can do -/

/-- The five effects a handler can have when it returns. -/
inductive HandlerEffect (cfg : Config) (s : State) : State → Prop where
  | load (v : Byte) : HandlerEffect cfg s (loadValue cfg v s)
  | store (ea : Addr) : HandlerEffect cfg s (storeTo ea s)
  | add (m : Byte) : HandlerEffect cfg s (addValue cfg m s)
  | produce (v : Byte) : HandlerEffect cfg s (produceX cfg v s)
  | halt : HandlerEffect cfg s (breakHalt s)

/-- A handler that resolves and then acts answers next only through an address of the resolver, and otherwise raises its fault. -/
theorem loadAccumulator_cases (mode : Mode) :
    (∃ ea, s.resolve cfg mode = .ok ea ∧ loadAccumulator cfg mode s = .next (loadFrom cfg ea s)) ∨
      (∃ k, s.resolve cfg mode = .error k ∧ loadAccumulator cfg mode s = raiseFault k s) := by
  unfold loadAccumulator
  cases s.resolve cfg mode with
  | ok ea => exact .inl ⟨ea, rfl, rfl⟩
  | error k => exact .inr ⟨k, rfl, rfl⟩

theorem storeAccumulator_cases (mode : Mode) :
    (∃ ea, s.resolve cfg mode = .ok ea ∧ storeAccumulator cfg mode s = .next (storeTo ea s)) ∨
      (∃ k, s.resolve cfg mode = .error k ∧ storeAccumulator cfg mode s = raiseFault k s) := by
  unfold storeAccumulator
  cases s.resolve cfg mode with
  | ok ea => exact .inl ⟨ea, rfl, rfl⟩
  | error k => exact .inr ⟨k, rfl, rfl⟩

theorem addWithCarry_cases (mode : Mode) :
    (∃ ea, s.resolve cfg mode = .ok ea ∧ addWithCarry cfg mode s = .next (addFrom cfg ea s)) ∨
      (∃ k, s.resolve cfg mode = .error k ∧ addWithCarry cfg mode s = raiseFault k s) := by
  unfold addWithCarry
  cases s.resolve cfg mode with
  | ok ea => exact .inl ⟨ea, rfl, rfl⟩
  | error k => exact .inr ⟨k, rfl, rfl⟩

/-- A handler returns with one of the five effects, or raises a fault; it never refuses. -/
theorem handler_cases (opcode : Byte) (d : Descriptor) :
    (∃ t, HandlerEffect cfg s t ∧ handler cfg opcode d s = .next t) ∨ ∃ k, handler cfg opcode d s = raiseFault k s := by
  obtain ⟨mn, len, cyc, mode⟩ := d
  cases mn with
  | loadAccumulator =>
    exact (loadAccumulator_cases cfg s mode).imp (fun ⟨ea, _, h⟩ => ⟨_, .load (s.mem.readByte ea), h⟩) fun ⟨k, _, h⟩ => ⟨k, h⟩
  | storeAccumulator =>
    exact (storeAccumulator_cases cfg s mode).imp (fun ⟨ea, _, h⟩ => ⟨_, .store ea, h⟩) fun ⟨k, _, h⟩ => ⟨k, h⟩
  | addWithCarry =>
    exact (addWithCarry_cases cfg s mode).imp (fun ⟨ea, _, h⟩ => ⟨_, .add (s.mem.readByte ea), h⟩) fun ⟨k, _, h⟩ => ⟨k, h⟩
  | transferAccumulatorToX => exact .inl ⟨_, .produce s.a, rfl⟩
  | incrementX => exact .inl ⟨_, .produce (s.x + 1), rfl⟩
  | brk => exact .inl ⟨_, .halt, rfl⟩
  | other id => exact .inr ⟨.unsupportedOpcode opcode, rfl⟩

/-- Every instruction completes, in every state, with one of the five effects. -/
theorem exec_effect (i : Instr) (s : State) : ∃ t, exec i s = .next t ∧ HandlerEffect chosen s t := by
  cases i
  case brk => exact ⟨_, rfl, .halt⟩
  case tax => exact ⟨_, rfl, .produce s.a⟩
  case inx => exact ⟨_, rfl, .produce (s.x + 1)⟩
  all_goals first
    | exact ⟨_, rfl, .load _⟩
    | exact ⟨_, rfl, .store _⟩
    | exact ⟨_, rfl, .add _⟩

/-! ## What no effect changes -/

variable {cfg s}

theorem HandlerEffect.y_eq {t : State} (h : HandlerEffect cfg s t) : t.y = s.y := by cases h <;> rfl

theorem HandlerEffect.pc_eq {t : State} (h : HandlerEffect cfg s t) : t.pc = s.pc := by cases h <;> rfl

theorem HandlerEffect.mem_wf {t : State} (h : HandlerEffect cfg s t) (hm : s.mem.wf = true) : t.mem.wf = true := by
  cases h with
  | store ea => exact Memory.wf_writeByte hm ea s.a
  | _ => exact hm

/-- The phase after a handler: unchanged, or halted by Break. -/
theorem HandlerEffect.phase_eq {t : State} (h : HandlerEffect cfg s t) : t.phase = s.phase ∨ t.phase = .halted := by
  cases h with
  | halt => exact .inr rfl
  | _ => exact .inl rfl

end Sys2Proof.Machine
end

