-- ==== Sys2Proof/Laws/PerInstr.lean ====
section
/-! SUPPORT. Laws/PerInstr.lean: the statements made once per instruction, one lemma per constructor. -/

namespace Sys2Proof.Laws.Encoding

/-- The table has a row for the instruction's opcode byte, that row is the instruction's descriptor, and the encoding is as long as the
descriptor says (30_encoding.md R55, R58). -/
def Statement (i : Instr) : Prop :=
  opcodeTable.find i.opcode = some i.descriptor ∧ i.descriptor.wf = true ∧ (encode i).length = i.descriptor.length

theorem brk : Statement .brk := ⟨rfl, rfl, rfl⟩
theorem adcIndirectX (d8 : Byte) : Statement (.adcIndirectX d8) := ⟨rfl, rfl, rfl⟩
theorem adcZeroPage (d8 : Byte) : Statement (.adcZeroPage d8) := ⟨rfl, rfl, rfl⟩
theorem adcImmediate (d8 : Byte) : Statement (.adcImmediate d8) := ⟨rfl, rfl, rfl⟩
theorem adcAbsolute (d16 : Addr) : Statement (.adcAbsolute d16) := ⟨rfl, rfl, rfl⟩
theorem adcIndirectY (d8 : Byte) : Statement (.adcIndirectY d8) := ⟨rfl, rfl, rfl⟩
theorem adcZeroPageX (d8 : Byte) : Statement (.adcZeroPageX d8) := ⟨rfl, rfl, rfl⟩
theorem adcAbsoluteY (d16 : Addr) : Statement (.adcAbsoluteY d16) := ⟨rfl, rfl, rfl⟩
theorem adcAbsoluteX (d16 : Addr) : Statement (.adcAbsoluteX d16) := ⟨rfl, rfl, rfl⟩
theorem staIndirectX (d8 : Byte) : Statement (.staIndirectX d8) := ⟨rfl, rfl, rfl⟩
theorem staZeroPage (d8 : Byte) : Statement (.staZeroPage d8) := ⟨rfl, rfl, rfl⟩
theorem staAbsolute (d16 : Addr) : Statement (.staAbsolute d16) := ⟨rfl, rfl, rfl⟩
theorem staIndirectY (d8 : Byte) : Statement (.staIndirectY d8) := ⟨rfl, rfl, rfl⟩
theorem staZeroPageX (d8 : Byte) : Statement (.staZeroPageX d8) := ⟨rfl, rfl, rfl⟩
theorem staAbsoluteY (d16 : Addr) : Statement (.staAbsoluteY d16) := ⟨rfl, rfl, rfl⟩
theorem staAbsoluteX (d16 : Addr) : Statement (.staAbsoluteX d16) := ⟨rfl, rfl, rfl⟩
theorem ldaIndirectX (d8 : Byte) : Statement (.ldaIndirectX d8) := ⟨rfl, rfl, rfl⟩
theorem ldaZeroPage (d8 : Byte) : Statement (.ldaZeroPage d8) := ⟨rfl, rfl, rfl⟩
theorem ldaImmediate (d8 : Byte) : Statement (.ldaImmediate d8) := ⟨rfl, rfl, rfl⟩
theorem tax : Statement .tax := ⟨rfl, rfl, rfl⟩
theorem ldaAbsolute (d16 : Addr) : Statement (.ldaAbsolute d16) := ⟨rfl, rfl, rfl⟩
theorem ldaIndirectY (d8 : Byte) : Statement (.ldaIndirectY d8) := ⟨rfl, rfl, rfl⟩
theorem ldaZeroPageX (d8 : Byte) : Statement (.ldaZeroPageX d8) := ⟨rfl, rfl, rfl⟩
theorem ldaAbsoluteY (d16 : Addr) : Statement (.ldaAbsoluteY d16) := ⟨rfl, rfl, rfl⟩
theorem ldaAbsoluteX (d16 : Addr) : Statement (.ldaAbsoluteX d16) := ⟨rfl, rfl, rfl⟩
theorem inx : Statement .inx := ⟨rfl, rfl, rfl⟩

end Sys2Proof.Laws.Encoding
end

