-- ==== Sys2Proof/Laws/Step.lean ====
section
/-! SUPPORT. Laws/Step.lean: what the engine and the step can do, said once. -/

namespace Sys2Proof.Machine

/-! ## Sequencing -/

@[simp] theorem andThen_next (t : State) (f : State → Result) : andThen (.next t) f = f t := rfl
@[simp] theorem andThen_fault (e : Fault) (f : State → Result) : andThen (.fault e) f = .fault e := rfl
@[simp] theorem andThen_refused (r : Refusal) (f : State → Result) : andThen (.refused r) f = .refused r := rfl
@[simp] theorem andThen_raiseFault (k : FaultKind) (s : State) (f : State → Result) :
    andThen (raiseFault k s) f = raiseFault k s := rfl

theorem raiseFault_ne_next (k : FaultKind) (s t : State) : raiseFault k s ≠ .next t := by
  cases k <;> simp [raiseFault]

theorem raiseFault_ne_refused (k : FaultKind) (s : State) (r : Refusal) : raiseFault k s ≠ .refused r := by
  cases k <;> simp [raiseFault]

/-! ## After the handler -/

variable (pcb : Addr) (n : Nat) (t : State)

@[simp] theorem advance_a : (advance pcb n t).a = t.a := by unfold advance; split <;> rfl
@[simp] theorem advance_x : (advance pcb n t).x = t.x := by unfold advance; split <;> rfl
@[simp] theorem advance_y : (advance pcb n t).y = t.y := by unfold advance; split <;> rfl
@[simp] theorem advance_p : (advance pcb n t).p = t.p := by unfold advance; split <;> rfl
@[simp] theorem advance_mem : (advance pcb n t).mem = t.mem := by unfold advance; split <;> rfl

@[simp] theorem afterHandler_a : (afterHandler pcb n t).a = t.a := by unfold afterHandler; split <;> simp
@[simp] theorem afterHandler_x : (afterHandler pcb n t).x = t.x := by unfold afterHandler; split <;> simp
@[simp] theorem afterHandler_y : (afterHandler pcb n t).y = t.y := by unfold afterHandler; split <;> simp
@[simp] theorem afterHandler_p : (afterHandler pcb n t).p = t.p := by unfold afterHandler; split <;> simp
@[simp] theorem afterHandler_mem : (afterHandler pcb n t).mem = t.mem := by unfold afterHandler; split <;> simp

theorem afterHandler_halted (h : t.phase = .halted) : afterHandler pcb n t = t := by simp [afterHandler, h]

theorem afterHandler_running (h : t.phase ≠ .halted) :
    afterHandler pcb n t = (advance pcb n t).setPhase .fetch := by simp [afterHandler, h]

/-- After a handler the engine is halted or in Fetch. -/
theorem afterHandler_phase : (afterHandler pcb n t).phase = .halted ∨ (afterHandler pcb n t).phase = .fetch := by
  by_cases h : t.phase = .halted
  · exact .inl (by rw [afterHandler_halted _ _ _ h]; exact h)
  · exact .inr (by rw [afterHandler_running _ _ _ h]; rfl)

/-! ## The engine -/

variable {cfg : Config} {s u : State}

/-- `base` is `s` but for pc and phase. -/
def SameButPcPhase (s base : State) : Prop :=
  base.a = s.a ∧ base.x = s.x ∧ base.y = s.y ∧ base.p = s.p ∧ base.mem = s.mem

theorem executePhase_next {op : Byte} {d : Descriptor} (h : executePhase cfg op d pcb s = .next u) :
    ∃ t, HandlerEffect cfg s t ∧ u = afterHandler pcb d.length t := by
  unfold executePhase at h
  obtain ⟨t, ht, he⟩ | ⟨k, he⟩ := handler_cases cfg s op d
  · rw [he, andThen_next] at h
    exact ⟨t, ht, by injection h with h; exact h.symm⟩
  · rw [he, andThen_raiseFault] at h
    exact absurd h (raiseFault_ne_next k s u)

theorem executePhase_ne_refused (op : Byte) (d : Descriptor) (r : Refusal) : executePhase cfg op d pcb s ≠ .refused r := by
  unfold executePhase
  obtain ⟨t, _, he⟩ | ⟨k, he⟩ := handler_cases cfg s op d
  · simp [he]
  · rw [he, andThen_raiseFault]; exact raiseFault_ne_refused k s r

/-- Decode answers a next state only by entering Execute with the descriptor of the byte. -/
theorem decodePhase_cases (cfg : Config) (op : Byte) (s : State) :
    (∃ d, cfg.optab.find op = some d ∧ hasHandler d.mnemonic = true ∧
        decodePhase cfg op s = .next (s.setPhase (.execute op d s.pc))) ∨
      decodePhase cfg op s = raiseFault (.unsupportedOpcode op) s := by
  unfold decodePhase
  cases hd : cfg.optab.find op with
  | none => exact .inr rfl
  | some d =>
    cases hh : hasHandler d.mnemonic
    · exact .inr (by simp [hh])
    · exact .inl ⟨d, rfl, hh, by simp [hh]⟩

theorem tick_refused (h : cfg.optab.wf = false) : tick cfg s = .refused .illFormedTable := by simp [tick, h]

/-- Decode and Execute in one: the handler of the byte's descriptor, or UnsupportedOpcode. -/
theorem iteration_decode_cases (h : cfg.optab.wf = true) {op : Byte} (hp : s.phase = .decode op) :
    (∃ d, cfg.optab.find op = some d ∧ hasHandler d.mnemonic = true ∧
        iteration cfg s = executePhase cfg op d s.pc (s.setPhase (.execute op d s.pc))) ∨
      iteration cfg s = raiseFault (.unsupportedOpcode op) s := by
  have h1 : iteration cfg s = andThen (decodePhase cfg op s) (tick cfg) := by simp [iteration, tick, h, hp]
  obtain ⟨d, hd, hh, he⟩ | he := decodePhase_cases cfg op s
  · exact .inl ⟨d, hd, hh, by rw [h1, he]; simp [tick, h]⟩
  · exact .inr (by rw [h1, he]; rfl)

theorem iteration_fetch (h : cfg.optab.wf = true) (hp : s.phase = .fetch) :
    iteration cfg s = iteration cfg (s.afterFetch.setPhase (.decode s.fetchOpcode)) := by
  simp [iteration, hp, tick, h, fetchPhase]

theorem iteration_execute (h : cfg.optab.wf = true) {op : Byte} {d : Descriptor} (hp : s.phase = .execute op d pcb) :
    iteration cfg s = executePhase cfg op d pcb s := by simp [iteration, hp, tick, h]

theorem chosen_table_wf : chosen.optab.wf = true := by decide

/-! ## The step -/

theorem runInstr_eq (i : Instr) (s : State) :
    ∃ t, exec i s.afterFetch = .next t ∧ HandlerEffect chosen s.afterFetch t ∧
      runInstr i s = .next (afterHandler (s.pc + 1) i.length t) := by
  obtain ⟨t, ht, he⟩ := exec_effect i s.afterFetch
  exact ⟨t, ht, he, by rw [runInstr, ht, andThen_next]⟩

/-- From Fetch, a step runs the decoded instruction or raises UnsupportedOpcode. -/
theorem step_fetch_cases (hp : s.phase = .fetch) :
    (∃ i rest, decode s.instrBytes = .ok (i, rest) ∧ step s = runInstr i s) ∨
      ((∃ e, decode s.instrBytes = .error e) ∧ step s = raiseFault (.unsupportedOpcode s.fetchOpcode) s.afterFetch) := by
  have h1 : step s = stepFromFetch s := by simp [step, stepOnce, hp]
  rw [h1]
  unfold stepFromFetch
  cases hd : decode s.instrBytes with
  | ok p => exact .inl ⟨p.1, p.2, rfl, rfl⟩
  | error e => exact .inr ⟨⟨e, rfl⟩, rfl⟩

/-- Everything a step that answers next can have done: nothing, in Halted; else a handler's effect on the state with pc and phase as the
engine had them, followed by what follows a handler. -/
theorem step_next (h : step s = .next u) :
    (s.phase = .halted ∧ u = s) ∨
      ∃ base t pcb len, SameButPcPhase s base ∧ HandlerEffect chosen base t ∧ u = afterHandler pcb len t := by
  cases hp : s.phase with
  | fetch =>
    refine .inr ?_
    obtain ⟨i, rest, _, hs⟩ | ⟨_, hs⟩ := step_fetch_cases hp
    · obtain ⟨t, _, he, hr⟩ := runInstr_eq i s
      rw [hs, hr] at h
      exact ⟨s.afterFetch, t, _, _, ⟨rfl, rfl, rfl, rfl, rfl⟩, he, by injection h with h; exact h.symm⟩
    · exact absurd (hs ▸ h) (raiseFault_ne_next _ _ _)
  | decode op =>
    refine .inr ?_
    have hs : step s = iteration chosen s := by simp [step, stepOnce, hp]
    obtain ⟨d, _, _, he⟩ | he := iteration_decode_cases chosen_table_wf hp
    · obtain ⟨t, ht, hu⟩ := executePhase_next _ ((he ▸ hs) ▸ h)
      exact ⟨s.setPhase (.execute op d s.pc), t, _, _, ⟨rfl, rfl, rfl, rfl, rfl⟩, ht, hu⟩
    · exact absurd ((he ▸ hs) ▸ h) (raiseFault_ne_next _ _ _)
  | execute op d pcb =>
    refine .inr ?_
    have hs : step s = iteration chosen s := by simp [step, stepOnce, hp]
    obtain ⟨t, ht, hu⟩ := executePhase_next _ ((iteration_execute _ chosen_table_wf hp ▸ hs) ▸ h)
    exact ⟨s, t, _, _, ⟨rfl, rfl, rfl, rfl, rfl⟩, ht, hu⟩
  | halted =>
    refine .inl ⟨rfl, ?_⟩
    have hs : step s = .next s := by simp [step, stepOnce, hp]
    rw [hs] at h
    injection h with h
    exact h.symm
  | faulted k =>
    have hs : step s = .fault (Fault.ofKind k s) := by simp [step, stepOnce, hp]
    rw [hs] at h
    cases h

end Sys2Proof.Machine
end

