-- ==== Sys2Proof/Tests/Slice0.lean ====
section
/-! SUPPORT. Tests/Slice0.lean: the model's own tests. Expected values are the spec's: 30_encoding.md for encodings, 95_test_vectors.md for
everything else; each heading names the part. The last part shows, for each statement with hypotheses, values that meet them. -/

open Sys2Proof Sys2Proof.Machine Sys2Proof.Claims

namespace Sys2Proof.Tests

/-! ## Checks of WellFormed.lean: each refuses an ill-formed term (30_encoding.md R55, R56; 70_reset_and_hazards.md R199). `Instr` has no
ill-formed term: its types admit only what R59 admits. -/

theorem test_wf_descriptor_length : Descriptor.wf ⟨.loadAccumulator, 1, none, .immediate⟩ = false := by decide
theorem test_wf_descriptor_implied : Descriptor.wf ⟨.loadAccumulator, 1, none, .implied⟩ = true := by decide
theorem test_wf_rows : OpTable.rowsWf [tableRow 0xA9 .loadAccumulator 2 .immediate, tableRow 0xAD .loadAccumulator 2 .absolute] = false := by
  decide
theorem test_wf_keys : OpTable.keysDistinct [tableRow 0x02 .incrementX 1 .implied, tableRow 0x02 .brk 1 .implied] = false := by decide
theorem test_wf_table : OpTable.wf [tableRow 0x02 .incrementX 2 .implied] = false := by decide
theorem test_wf_table_other : OpTable.wf [tableRow 0xEA (.other 0) 1 .implied] = true := by decide
theorem test_wf_default_table : opcodeTable.wf = true ∧ opcodeTable.length = 26 := by decide
theorem test_wf_image_too_long : imageWf (List.replicate 0x8001 0x00) = false := by
  rw [imageWf, List.length_replicate]; decide
theorem test_wf_image_longest : imageWf (List.replicate 0x8000 0x00) = true := by
  rw [imageWf, List.length_replicate]; decide
theorem test_wf_instr : Instr.wf (.ldaImmediate 0xFF) = true := by decide

/-! ## Decoding: a word of every constructor, its bits as opcode_table.json writes them (30_encoding.md R51, R58) -/

theorem test_decode_brk : decode [0b00000000] = .ok (.brk, []) := by decide
theorem test_decode_adcIndirectX : decode [0b01100001, 0b01111110] = .ok (.adcIndirectX 0x7E, []) := by decide
theorem test_decode_adcZeroPage : decode [0b01100101, 0b00000000] = .ok (.adcZeroPage 0x00, []) := by decide
theorem test_decode_adcImmediate : decode [0b01101001, 0b11111111] = .ok (.adcImmediate 0xFF, []) := by decide
theorem test_decode_adcAbsolute : decode [0b01101101, 0b00110100, 0b00010010] = .ok (.adcAbsolute 0x1234, []) := by decide
theorem test_decode_adcIndirectY : decode [0b01110001, 0b01111110] = .ok (.adcIndirectY 0x7E, []) := by decide
theorem test_decode_adcZeroPageX : decode [0b01110101, 0b00000000] = .ok (.adcZeroPageX 0x00, []) := by decide
theorem test_decode_adcAbsoluteY : decode [0b01111001, 0b10000000, 0b01111111] = .ok (.adcAbsoluteY 0x7F80, []) := by decide
theorem test_decode_adcAbsoluteX : decode [0b01111101, 0b00110100, 0b00010010] = .ok (.adcAbsoluteX 0x1234, []) := by decide
theorem test_decode_staIndirectX : decode [0b10000001, 0b01111110] = .ok (.staIndirectX 0x7E, []) := by decide
theorem test_decode_staZeroPage : decode [0b10000101, 0b00000000] = .ok (.staZeroPage 0x00, []) := by decide
theorem test_decode_staAbsolute : decode [0b10001101, 0b10000000, 0b01111111] = .ok (.staAbsolute 0x7F80, []) := by decide
theorem test_decode_staIndirectY : decode [0b10010001, 0b10000001] = .ok (.staIndirectY 0x81, []) := by decide
theorem test_decode_staZeroPageX : decode [0b10010101, 0b01111110] = .ok (.staZeroPageX 0x7E, []) := by decide
theorem test_decode_staAbsoluteY : decode [0b10011001, 0b00000000, 0b11111111] = .ok (.staAbsoluteY 0xFF00, []) := by decide
theorem test_decode_staAbsoluteX : decode [0b10011101, 0b10000000, 0b01111111] = .ok (.staAbsoluteX 0x7F80, []) := by decide
theorem test_decode_ldaIndirectX : decode [0b10100001, 0b10000001] = .ok (.ldaIndirectX 0x81, []) := by decide
theorem test_decode_ldaZeroPage : decode [0b10100101, 0b01111110] = .ok (.ldaZeroPage 0x7E, []) := by decide
theorem test_decode_ldaImmediate : decode [0b10101001, 0b00000000] = .ok (.ldaImmediate 0x00, []) := by decide
theorem test_decode_tax : decode [0b10101010] = .ok (.tax, []) := by decide
theorem test_decode_ldaAbsolute : decode [0b10101101, 0b00110100, 0b00010010] = .ok (.ldaAbsolute 0x1234, []) := by decide
theorem test_decode_ldaIndirectY : decode [0b10110001, 0b01111110] = .ok (.ldaIndirectY 0x7E, []) := by decide
theorem test_decode_ldaZeroPageX : decode [0b10110101, 0b00000000] = .ok (.ldaZeroPageX 0x00, []) := by decide
theorem test_decode_ldaAbsoluteY : decode [0b10111001, 0b10000000, 0b01111111] = .ok (.ldaAbsoluteY 0x7F80, []) := by decide
theorem test_decode_ldaAbsoluteX : decode [0b10111101, 0b00110100, 0b00010010] = .ok (.ldaAbsoluteX 0x1234, []) := by decide
theorem test_decode_inx : decode [0b11101000] = .ok (.inx, []) := by decide

theorem test_decode_unsupported : decode [0x02, 0x00, 0x00] = .error (.unsupportedOpcode 0x02) := by decide
theorem test_decode_truncated : decode [0xAD, 0x34] = .error (.truncated 0xAD) ∧ decode [] = .error .empty := by decide
/-- How many of the `n` bytes from `b` on are unsupported. -/
def unsupportedFrom : Nat → Byte → Nat
  | 0, _ => 0
  | n + 1, b => (if (opcodeTable.find b).isNone then 1 else 0) + unsupportedFrom n (b + 1)
/-- 230 of the 256 bytes are unsupported (30_encoding.md R59). -/
theorem test_unsupported_count :
    unsupportedFrom 64 0x00 + unsupportedFrom 64 0x40 + unsupportedFrom 64 0x80 + unsupportedFrom 64 0xC0 = 230 := by rfl
/-- Words as opcode_table.json numbers their bits: byte 0 in bits 7..0, the low byte of d16 in bits 15..8. -/
theorem test_decode_table_words :
    decodeTableWord 24 0x12348D = some (.staAbsolute 0x1234) ∧ decodeTableWord 16 0x05A9 = some (.ldaImmediate 0x05) ∧
    decodeTableWord 8 0xE8 = some .inx ∧ decodeTableWord 8 0x05A9 = some (.ldaImmediate 0x00) ∧ decodeTableWord 8 0x02 = none := by decide
/-- The examples of 30_encoding.md R61. -/
theorem test_text :
    (Instr.ldaImmediate 0x05).text = ['L', 'D', 'A', ' ', '#', '$', '0', '5'] ∧
    (Instr.staAbsoluteX 0x1300).text = ['S', 'T', 'A', ' ', '$', '1', '3', '0', '0', ',', 'X'] ∧
    (Instr.ldaIndirectX 0x0F).text = ['L', 'D', 'A', ' ', '(', '$', '0', 'F', ',', 'X', ')'] ∧
    (Instr.ldaIndirectY 0x10).text = ['L', 'D', 'A', ' ', '(', '$', '1', '0', ')', ',', 'Y'] ∧
    Instr.tax.text = ['T', 'A', 'X'] := by decide

/-! ## The flag-computation unit (95_test_vectors.md 2.1 to 2.3) -/

/-- 2.1: (p_in, val, p_out). -/
theorem test_updateZN :
    [(0x24, 0x00, 0x26), (0x24, 0x01, 0x24), (0x24, 0x7F, 0x24), (0x24, 0x80, 0xA4), (0x24, 0xFF, 0xA4), (0xFF, 0x01, 0x7D),
      (0x00, 0x00, 0x02), (0xA6, 0x05, 0x24)].all (fun (t : Byte × Byte × Byte) => updateZN t.1 t.2.1 == t.2.2) = true := by decide
/-- 2.2. -/
theorem test_flag_bits :
    flagInsert 0x24 0 = 0x25 ∧ flagInsert 0x25 0 = 0x25 ∧ flagInsert 0x00 7 = 0x80 ∧ flagRemove 0xA5 7 = 0x25 ∧
    flagRemove 0x24 0 = 0x24 ∧ flagRemove 0xFF 6 = 0xBF ∧ flagTest 0x25 0 = true ∧ flagTest 0x24 6 = false := by decide
/-- One row of 2.3: a, m, carry-in, result, and the flags C, V, Z, N. -/
def addRow (a m : Byte) (cin : Bool) (r : Byte) (c v z n : Bool) : Bool :=
  let p : Byte := if cin then 0x25 else 0x24
  let q := addFlags .computed p a m
  addResult a m (carryIn p) == r && flagOf q .carry == c && flagOf q .overflow == v && flagOf q .zero == z && flagOf q .negative == n
theorem test_add_same_sign :
    (addRow 0x50 0x50 false 0xA0 false true false true &&
      addRow 0x50 0x10 false 0x60 false false false false &&
      addRow 0x50 0x90 false 0xE0 false false false true &&
      addRow 0x50 0xD0 false 0x20 true false false false &&
      addRow 0xD0 0x10 false 0xE0 false false false true &&
      addRow 0xD0 0x50 false 0x20 true false false false &&
      addRow 0xD0 0x90 false 0x60 true true false false &&
      addRow 0xD0 0xD0 false 0xA0 true false false true &&
      addRow 0xFF 0x01 false 0x00 true false true false &&
      addRow 0x01 0xFF false 0x00 true false true false &&
      addRow 0x80 0x80 false 0x00 true true true false) = true := by decide
theorem test_add_carry_in :
    (addRow 0x80 0xFF false 0x7F true true false false &&
      addRow 0x7F 0x01 false 0x80 false true false true &&
      addRow 0x7F 0x00 true 0x80 false true false true &&
      addRow 0x3F 0x40 true 0x80 false true false true &&
      addRow 0xFF 0x00 true 0x00 true false true false &&
      addRow 0x80 0x7F true 0x00 true false true false &&
      addRow 0x7F 0x7F true 0xFF false true false true &&
      addRow 0xFF 0xFF true 0xFF true false false true &&
      addRow 0x00 0x00 false 0x00 false false true false &&
      addRow 0x00 0x00 true 0x01 false false false false) = true := by decide
/-- The status-byte instances of 2.3. -/
theorem test_add_status :
    addFlags .computed 0x24 0x50 0x50 = 0xE4 ∧ addFlags .computed 0xA5 0xFF 0x00 = 0x27 ∧ addFlags .computed 0x6C 0x01 0x01 = 0x2C := by
  decide
/-- The ports of 00_scope.md R5: HOLD and an unused code, ADD with its result. -/
theorem test_fcu_ports :
    (fcu ⟨0, 0x24, 0x80, 0x50, 0x50, 2⟩).pOut = 0x24 ∧ (fcu ⟨7, 0x24, 0x80, 0x50, 0x50, 2⟩).pOut = 0x24 ∧
    fcu ⟨2, 0x24, 0x80, 0x50, 0x50, 2⟩ = ⟨0xA0, 0xE4, true⟩ := by decide

/-! ## The addressing-mode resolver (95_test_vectors.md 2.4) -/

/-- Memory with the listed bytes. -/
def memOf : List (Addr × Byte) → Memory
  | [] => []
  | (a, b) :: rest => (memOf rest).writeByte a b

/-- The answer of the resolver under the chosen parameters. -/
def ea (mode : Mode) (pc : Addr) (x y : Byte) (cells : List (Addr × Byte)) : Option Addr :=
  (resolve chosen mode pc x y (memOf cells)).toOption

theorem test_resolve_immediate : ea .immediate 0x8001 3 4 [] = some 0x8001 ∧ ea .immediate 0xFFFF 3 4 [] = some 0xFFFF := by decide
theorem test_resolve_zeroPage :
    ea .zeroPage 0x8001 3 4 [(0x8001, 0x10)] = some 0x0010 ∧ ea .zeroPage 0x8001 3 4 [(0x8001, 0xFF)] = some 0x00FF := by decide
theorem test_resolve_zeroPageX :
    ea .zeroPageX 0x8004 0x01 9 [(0x8004, 0x01)] = some 0x0002 ∧ ea .zeroPageX 0x8001 0x01 9 [(0x8001, 0xFF)] = some 0x0000 ∧
    ea .zeroPageX 0x8001 0xFF 9 [(0x8001, 0x80)] = some 0x007F := by decide
theorem test_resolve_zeroPageY :
    ea .zeroPageY 0x8001 9 0x20 [(0x8001, 0xF0)] = some 0x0010 ∧ ea .zeroPageY 0x8001 9 0xFF [(0x8001, 0x00)] = some 0x00FF := by decide
theorem test_resolve_absolute :
    ea .absolute 0x8001 9 9 [(0x8001, 0x34), (0x8002, 0x12)] = some 0x1234 ∧
    ea .absolute 0xFFFF 9 9 [(0xFFFF, 0x34), (0x0000, 0x12)] = some 0x1234 := by decide
theorem test_resolve_absoluteX :
    ea .absoluteX 0x8001 0x01 9 [(0x8001, 0x00), (0x8002, 0x13)] = some 0x1301 ∧
    ea .absoluteX 0x8001 0x01 9 [(0x8001, 0xFF), (0x8002, 0x12)] = some 0x1300 ∧
    ea .absoluteX 0x8001 0x01 9 [(0x8001, 0xFF), (0x8002, 0xFF)] = some 0x0000 ∧
    ea .absoluteX 0x8001 0xFF 9 [(0x8001, 0x01), (0x8002, 0xFF)] = some 0x0000 := by decide
theorem test_resolve_absoluteY : ea .absoluteY 0x8001 9 0x20 [(0x8001, 0xF0), (0x8002, 0xFF)] = some 0x0010 := by decide
theorem test_resolve_indirectX :
    ea .indirectX 0x8001 0x01 9 [(0x8001, 0x0F), (0x0010, 0x34), (0x0011, 0x12)] = some 0x1234 ∧
    ea .indirectX 0x8001 0x01 9 [(0x8001, 0xFE), (0x00FF, 0x78), (0x0000, 0x56), (0x0100, 0xEE)] = some 0x5678 ∧
    ea .indirectX 0x8001 0x02 9 [(0x8001, 0xFF), (0x0001, 0xCD), (0x0002, 0xAB)] = some 0xABCD := by decide
theorem test_resolve_indirectY :
    ea .indirectY 0x8001 9 0x05 [(0x8001, 0x10), (0x0010, 0x34), (0x0011, 0x12)] = some 0x1239 ∧
    ea .indirectY 0x8001 9 0x02 [(0x8001, 0x10), (0x0010, 0xFF), (0x0011, 0xFF)] = some 0x0001 ∧
    ea .indirectY 0x8001 9 0x10 [(0x8001, 0xFF), (0x00FF, 0x00), (0x0000, 0x20), (0x0100, 0xEE)] = some 0x2010 ∧
    ea .indirectY 0x8001 9 0x00 [(0x8001, 0x10), (0x0010, 0x34), (0x0011, 0x12)] = some 0x1234 := by decide
theorem test_resolve_implied : resolve chosen .implied 0x8001 1 2 [] = .error (.unsupportedAddressingMode 9) := by decide
/-- The contrast row of 2.4: the baseline alternative U2 at row 20 reads the pointer at 0x15. -/
theorem test_resolve_indirectY_baseline :
    (resolve (Config.mk opcodeTable 0x24 true .wrap .addThenDereference .produced .computed) .indirectY 0x8001 9 0x05
      (memOf [(0x8001, 0x10), (0x0015, 0x78), (0x0016, 0x56)])).toOption = some 0x5678 := by decide

/-! ## Memory primitives and host calls (95_test_vectors.md 2.5, 2.8) -/

theorem test_fresh_byte : hostReadByte 0x1234 construct = 0x00 := by decide
theorem test_write_byte : hostReadByte 0x0200 (hostWriteByte 0x0200 0xAB construct) = 0xAB := by decide
theorem test_word_not_page_wrapped :
    Memory.writeWord [] 0x00FF 0x1234 = [(0x00FF, 0x34), (0x0100, 0x12)] ∧
    Memory.zpReadWord [(0x0000, 0x56), (0x00FF, 0x34), (0x0100, 0x12)] 0xFF = 0x5634 := by decide
theorem test_word_at_top :
    Memory.writeWord [] 0xFFFE 0xBEEF = [(0xFFFE, 0xEF), (0xFFFF, 0xBE)] ∧
    Memory.writeWord [] 0xFFFF 0xBEEF = [(0x0000, 0xBE), (0xFFFF, 0xEF)] ∧
    Memory.readWord [(0x0000, 0xBE), (0xFFFF, 0xEF)] 0xFFFF = 0xBEEF := by decide
theorem test_write_zero_removes : Memory.writeByte [(0x0200, 0xAB)] 0x0200 0x00 = [] := by decide
theorem test_load :
    load [0xA9, 0x05, 0x00] construct = .next { construct with mem := [(0x8000, 0xA9), (0x8001, 0x05), (0xFFFD, 0x80)] } := by rfl
theorem test_reset_fresh : (hostReset chosen construct).pc = 0x0000 ∧ (hostReset chosen construct).p = 0x24 := by decide
theorem test_reset_vector :
    hostReset chosen ⟨0x12, 0x34, 0x56, 0x1111, 0xC3, [(0xFFFD, 0x80)], .halted⟩ =
      ⟨0x00, 0x00, 0x00, 0x8000, 0x24, [(0xFFFD, 0x80)], .fetch⟩ := by decide
theorem test_reset_vector_top : (hostReset chosen { construct with mem := [(0xFFFC, 0xFF), (0xFFFD, 0xFF)] }).pc = 0xFFFF := by decide
theorem test_run_fresh : run 1 construct = .halted { construct with pc := 0x0001, phase := .halted } := by rfl
theorem test_load_and_run_starts : loadAndRun [0x00] 1 construct =
    .halted ⟨0x00, 0x00, 0x00, 0x8001, 0x24, [(0xFFFD, 0x80)], .halted⟩ := by rfl

/-! ## Single instructions (95_test_vectors.md 2.6): the opcode at 0x8000 -/

/-- A state about to fetch at 0x8000, with P = 0x24, the listed bytes in memory, and A, X, Y as given. -/
def at8000 (a x y : Byte) (cells : List (Addr × Byte)) : State := ⟨a, x, y, 0x8000, 0x24, memOf cells, .fetch⟩

/-- A, X, P and pc after one step; none if the step does not answer next. -/
def after (s : State) : Option (Byte × Byte × Byte × Addr) :=
  match step s with
  | .next t => some (t.a, t.x, t.p, t.pc)
  | .fault _ => none
  | .refused _ => none

/-- A byte of memory after one step. -/
def byteAfter (addr : Addr) (s : State) : Option Byte :=
  match step s with
  | .next t => some (t.mem.readByte addr)
  | .fault _ => none
  | .refused _ => none

theorem test_ldaImmediate_zero : after (at8000 0x55 0 0 [(0x8000, 0xA9), (0x8001, 0x00)]) = some (0x00, 0, 0x26, 0x8002) := by decide
theorem test_ldaImmediate_negative : after (at8000 0 0 0 [(0x8000, 0xA9), (0x8001, 0x80)]) = some (0x80, 0, 0xA4, 0x8002) := by decide
theorem test_ldaZeroPage : after (at8000 0 0 0 [(0x8000, 0xA5), (0x8001, 0x10), (0x0010, 0x7F)]) = some (0x7F, 0, 0x24, 0x8002) := by decide
theorem test_ldaZeroPageX : after (at8000 0 1 0 [(0x8000, 0xB5), (0x8001, 0xFF), (0x0000, 0x07)]) = some (0x07, 1, 0x24, 0x8002) := by decide
theorem test_ldaAbsolute :
    after (at8000 0 0 0 [(0x8000, 0xAD), (0x8001, 0x34), (0x8002, 0x12), (0x1234, 0xC3)]) = some (0xC3, 0, 0xA4, 0x8003) := by decide
theorem test_ldaAbsoluteX :
    after (at8000 9 1 0 [(0x8000, 0xBD), (0x8001, 0xFF), (0x8002, 0x12), (0x1300, 0x00)]) = some (0x00, 1, 0x26, 0x8003) := by decide
theorem test_ldaAbsoluteY :
    after (at8000 9 0 0x20 [(0x8000, 0xB9), (0x8001, 0xF0), (0x8002, 0xFF), (0x0010, 0x42)]) = some (0x42, 0, 0x24, 0x8003) := by decide
theorem test_ldaIndirectX :
    after (at8000 0 1 0 [(0x8000, 0xA1), (0x8001, 0x0F), (0x0010, 0x34), (0x0011, 0x12), (0x1234, 0xAB)]) =
      some (0xAB, 1, 0xA4, 0x8002) := by decide
theorem test_ldaIndirectY :
    after (at8000 0 0 5 [(0x8000, 0xB1), (0x8001, 0x10), (0x0010, 0x34), (0x0011, 0x12), (0x1239, 0x01)]) =
      some (0x01, 0, 0x24, 0x8002) := by decide

theorem test_staZeroPage : byteAfter 0x0010 (at8000 0x34 0 0 [(0x8000, 0x85), (0x8001, 0x10)]) = some 0x34 := by decide
theorem test_staZeroPageX : byteAfter 0x0000 (at8000 0x9C 1 0 [(0x8000, 0x95), (0x8001, 0xFF)]) = some 0x9C := by decide
theorem test_staZeroPageX_flags : after (at8000 0x9C 1 0 [(0x8000, 0x95), (0x8001, 0xFF)]) = some (0x9C, 1, 0x24, 0x8002) := by decide
theorem test_staAbsolute :
    byteAfter 0xFFFC (at8000 0 0 0 [(0x8000, 0x8D), (0x8001, 0xFC), (0x8002, 0xFF), (0xFFFC, 0x55)]) = some 0x00 := by decide
theorem test_staAbsoluteX : byteAfter 0x1301 (at8000 0xAB 1 0 [(0x8000, 0x9D), (0x8001, 0x00), (0x8002, 0x13)]) = some 0xAB := by decide
theorem test_staAbsoluteY : byteAfter 0x0010 (at8000 0xAB 0 0x20 [(0x8000, 0x99), (0x8001, 0xF0), (0x8002, 0xFF)]) = some 0xAB := by decide
theorem test_staIndirectX :
    byteAfter 0x0300 (at8000 0x11 1 0 [(0x8000, 0x81), (0x8001, 0xFE), (0x0000, 0x03)]) = some 0x11 := by decide
theorem test_staIndirectY :
    byteAfter 0x1239 (at8000 0x11 0 5 [(0x8000, 0x91), (0x8001, 0x10), (0x0010, 0x34), (0x0011, 0x12)]) = some 0x11 := by decide

theorem test_adcImmediate : after (at8000 0x50 0 0 [(0x8000, 0x69), (0x8001, 0x50)]) = some (0xA0, 0, 0xE4, 0x8002) := by decide
theorem test_adcImmediate_carry_in :
    after { at8000 0xFF 0 0 [(0x8000, 0x69), (0x8001, 0x00)] with p := 0x25 } = some (0x00, 0, 0x27, 0x8002) := by decide
theorem test_adcZeroPage :
    after { at8000 0x01 0 0 [(0x8000, 0x65), (0x8001, 0x10), (0x0010, 0x01)] with p := 0x6C } = some (0x02, 0, 0x2C, 0x8002) := by decide
theorem test_adcZeroPageX :
    after (at8000 0x80 1 0 [(0x8000, 0x75), (0x8001, 0xFF), (0x0000, 0x80)]) = some (0x00, 1, 0x67, 0x8002) := by decide
theorem test_adcAbsolute :
    after (at8000 0xFF 0 0 [(0x8000, 0x6D), (0x8001, 0x34), (0x8002, 0x12), (0x1234, 0x01)]) = some (0x00, 0, 0x27, 0x8003) := by decide
theorem test_adcAbsoluteX :
    after (at8000 0x50 1 0 [(0x8000, 0x7D), (0x8001, 0xFF), (0x8002, 0x12), (0x1300, 0x10)]) = some (0x60, 1, 0x24, 0x8003) := by decide
theorem test_adcAbsoluteY :
    after (at8000 0x50 0 0x20 [(0x8000, 0x79), (0x8001, 0xF0), (0x8002, 0xFF), (0x0010, 0xD0)]) = some (0x20, 0, 0x25, 0x8003) := by decide
theorem test_adcIndirectX :
    after (at8000 0x7F 1 0 [(0x8000, 0x61), (0x8001, 0xFE), (0x0000, 0x12), (0x00FF, 0x34), (0x1234, 0x01)]) =
      some (0x80, 1, 0xE4, 0x8002) := by decide
theorem test_adcIndirectY :
    after (at8000 0x80 0 5 [(0x8000, 0x71), (0x8001, 0x10), (0x0010, 0x34), (0x0011, 0x12), (0x1239, 0xFF)]) =
      some (0x7F, 0, 0x65, 0x8002) := by decide

theorem test_tax_zero : after (at8000 0x00 0x33 0 [(0x8000, 0xAA)]) = some (0x00, 0x00, 0x26, 0x8001) := by decide
theorem test_tax_negative : after (at8000 0x80 0 0 [(0x8000, 0xAA)]) = some (0x80, 0x80, 0xA4, 0x8001) := by decide
theorem test_inx_wrap : after { at8000 0xFF 0xFF 0 [(0x8000, 0xE8)] with p := 0xA4 } = some (0xFF, 0x00, 0x26, 0x8001) := by decide
theorem test_inx_flags_from_x : after { at8000 0xFF 0x00 0 [(0x8000, 0xE8)] with p := 0xA4 } = some (0xFF, 0x01, 0x24, 0x8001) := by decide
theorem test_brk : step (at8000 1 2 3 [(0x8000, 0x00)]) = .next ⟨1, 2, 3, 0x8001, 0x24, [], .halted⟩ := by rfl

/-- 2.6, the two faulting rows. -/
theorem test_unsupported : step (at8000 1 2 3 [(0x8000, 0x02)]) =
    .fault (.unsupportedOpcode 0x02 ⟨1, 2, 3, 0x8001, 0x24, [(0x8000, 0x02)], .faulted (.unsupportedOpcode 0x02)⟩) := by rfl
theorem test_unsupported_wrap : step ⟨0, 0, 0, 0xFFFF, 0x24, [(0xFFFF, 0xFF)], .fetch⟩ =
    .fault (.unsupportedOpcode 0xFF ⟨0, 0, 0, 0x0000, 0x24, [(0xFFFF, 0xFF)], .faulted (.unsupportedOpcode 0xFF)⟩) := by rfl

/-- The configuration of 2.7: the row for 0xA9 gives LoadAccumulator the mode Implied. -/
def impliedLda : Config := { chosen with optab := [tableRow 0xA9 .loadAccumulator 1 .implied, tableRow 0x00 .brk 1 .implied] }
theorem test_implied_operand : loadAndRunUnder impliedLda [0xA9, 0x00] 1 construct =
    .faulted (.unsupportedAddressingMode 9
      ⟨0x00, 0x00, 0x00, 0x8001, 0x24, [(0x8000, 0xA9), (0xFFFD, 0x80)], .faulted (.unsupportedAddressingMode 9)⟩) := by rfl
/-- P9, its first step: an instruction across the top of memory. -/
theorem test_wrap_across_top :
    after ⟨0, 0, 0, 0xFFFE, 0x24, memOf [(0xFFFE, 0xAD), (0xFFFF, 0x34), (0x0000, 0x12), (0x1234, 0x99)], .fetch⟩ =
      some (0x99, 0, 0xA4, 0x0001) := by decide
/-- The host's hook: an instruction word placed after reset is the one the next step runs. -/
theorem test_fetch_word : after (State.reset.withFetchWord 16 0x80A9) = some (0x80, 0, 0xA4, 0x0002) := by decide

/-! ## Witnesses: values that meet the hypotheses of each statement that has any -/

theorem witness_DecodedBytesAreTheEncoding : decode [0xAD, 0x34, 0x12, 0xFF] = .ok (.ldaAbsolute 0x1234, [0xFF]) := by decide
theorem witness_UnsupportedExactlyWhereNoInstructionHasTheOpcode :
    decode [0x01] = .error (.unsupportedOpcode 0x01) ∧ decode [0xFF] = .error (.unsupportedOpcode 0xFF) ∧
      ∀ i : Instr, i.opcode ≠ 0xFF := by
  refine ⟨by decide, by decide, fun i => ?_⟩
  cases i <;> simp [Instr.opcode]
theorem witness_TableRowsAreTheInstructionsDescriptors :
    opcodeTable.find 0x00 = some ⟨.brk, 1, none, .implied⟩ ∧ opcodeTable.find 0xE8 = some ⟨.incrementX, 1, none, .implied⟩ := by decide

/-- A state with a few bytes in memory, in canonical form. -/
def sample : State := ⟨0x01, 0x02, 0x03, 0xFFFF, 0x24, [(0x0000, 0x05), (0xFFFF, 0xA9)], .fetch⟩

theorem witness_ByteWriteChangesThatByteAlone : sample.mem.wf = true ∧ (0x0000 : Addr) ≠ 0xFFFF := by decide
/-- The chosen parameters with WORD_WRAP set to reject. -/
def rejecting : Config := { chosen with wordWrap := .reject }
theorem witness_WordWriteReadsBack :
    (hostWriteWord chosen 0xFFFF 0xBEEF sample).toOption.isSome = true ∧ (hostWriteWord rejecting 0xFFFE 0xBEEF sample).toOption.isSome = true ∧
      (0xFFFE : Addr).toNat ≠ 0xFFFF ∧ chosen.wordWrap = .wrap ∧ (hostWriteWord rejecting 0xFFFF 0xBEEF sample).toOption = none := by decide
theorem witness_WordWriteIsLittleEndian :
    sample.mem.wf = true ∧ hostWriteWord chosen 0xFFFF 0xBEEF sample = .ok { sample with mem := [(0x0000, 0xBE), (0xFFFF, 0xEF)] } ∧
      (0x0001 : Addr) ≠ 0xFFFF ∧ (0x0001 : Addr).toNat ≠ ((0xFFFF : Addr).toNat + 1) % 65536 := by
  exact ⟨by decide, rfl, by decide, by decide⟩
theorem witness_ZeroPageWordReadStaysInPageZero : (0xFE : Byte) ≠ 0xFF ∧ (0x00 : Byte) ≠ 0xFF := by decide
theorem witness_CanonicalMemoriesThatReadTheSameAreEqual :
    (memOf [(0x0001, 0x02), (0xFFFF, 0x03)]).wf = true ∧ (memOf [(0xFFFF, 0x03), (0x0001, 0x02)]).wf = true ∧
      ∀ addr, (memOf [(0x0001, 0x02), (0xFFFF, 0x03)]).readByte addr = (memOf [(0xFFFF, 0x03), (0x0001, 0x02)]).readByte addr :=
  ⟨by decide, by decide, fun _ => rfl⟩
theorem witness_StoringTheHeldByteChangesNothing :
    (State.mem { sample with a := 0x05 }).wf = true ∧ (State.mem { sample with a := 0x05 }).readByte 0x0000 = 0x05 := by decide

/-- FCU inputs with a given operation, flag index 7 where one is used. -/
def inputs (fop : BitVec 3) : FcuIn := ⟨fop, 0x24, 0x80, 0x7F, 0x01, 7⟩

theorem witness_FlagInsertRemoveTestTouchOneBit : (inputs 3).fop = 3 ∧ (inputs 4).fop = 4 ∧ 7 < 8 ∧ (inputs 3).fsel.toNat = 7 := by decide
theorem witness_UpdateZNWritesZeroAndNegativeAlone : (inputs 1).fop = 1 := rfl
theorem witness_AddFlagsWritesCarryOverflowZeroNegative : (inputs 2).fop = 2 := rfl
theorem witness_HoldKeepsPAndPIsItsEightFlags : (inputs 0).fop = 0 ∧ 5 ≤ (inputs 5).fop.toNat ∧ 5 ≤ (inputs 7).fop.toNat := by decide
/-- The source's baseline (93_implementation_defined.md U2 to U4). -/
def baseline : Config := { chosen with znSource := .accumulator, adcOverflow := .unchanged, indyPolicy := .addThenDereference }
theorem witness_BaselineAlternativesOfTheFlags : baseline.znSource = .accumulator ∧ baseline.adcOverflow = .unchanged := ⟨rfl, rfl⟩
theorem witness_ResolveAbsoluteModesWrapModulo65536 :
    0x05A9 = (sample.mem.readByte 0xFFFF).toNat + 256 * (sample.mem.readByte (BitVec.ofNat 16 (((0xFFFF : Addr).toNat + 1) % 65536))).toNat := by
  have lo : (sample.mem.readByte 0xFFFF).toNat = 0xA9 := by decide
  have hi : (sample.mem.readByte (BitVec.ofNat 16 (((0xFFFF : Addr).toNat + 1) % 65536))).toNat = 0x05 := by decide
  rw [lo, hi]
theorem witness_ResolveIndirectXWrapsThePointer : 0xFF = ((sample.mem.readByte 0xFFFF).toNat + (0x56 : Byte).toNat) % 256 := by decide
theorem witness_ResolveIndirectYDereferencesThenAddsY :
    0xA9 = (sample.mem.readByte 0xFFFF).toNat ∧ baseline.indyPolicy = .addThenDereference := by decide
theorem witness_TagPortResolvesModesAndFaultsOnUnusedCodes : 10 ≤ (10 : BitVec 4).toNat ∧ 10 ≤ (15 : BitVec 4).toNat := by decide
theorem witness_ResolverReadsAtMostThreeCells :
    ∀ addr ∈ cellsRead .indirectX 0xFFFF 0x57 sample.mem,
      (sample.mem.writeByte 0x1234 0x99).readByte addr = sample.mem.readByte addr := by
  rw [show cellsRead .indirectX 0xFFFF 0x57 sample.mem = [0xFFFF, 0x0000, 0x0001] by decide]
  intro addr h
  rcases List.mem_cons.mp h with rfl | h
  · decide
  rcases List.mem_cons.mp h with rfl | h
  · decide
  obtain rfl := List.mem_singleton.mp h
  decide
theorem witness_RejectedWordAccessFaultsAtFFFFOnly : rejecting.wordWrap = .reject := rfl

theorem witness_StoreAccumulatorStoresOneByte : sample.mem.wf = true := by decide
theorem witness_BreakHaltsAndChangesNothingElse : State.reset.phase = .fetch ∧ State.reset.mem.readByte State.reset.pc = 0x00 := by decide
/-- Break, and an instruction across the top of memory. -/
theorem witness_StepRunsTheDecodedInstruction :
    State.reset.phase = .fetch ∧ Instr.wf .brk = true ∧ decode State.reset.instrBytes = .ok (.brk, [0x00, 0x00]) ∧
    (breakHalt State.reset).phase = .halted ∧
    sample.phase = .fetch ∧ Instr.wf (.ldaImmediate 0x05) = true ∧ decode sample.instrBytes = .ok (.ldaImmediate 0x05, [0x00]) ∧
    (loadValue chosen 0x05 sample.afterFetch).phase ≠ .halted := by decide
/-- A program counter equal to the one captured before dispatch, one that differs, and Break. -/
theorem witness_AdvanceSkipsOperandsUnlessPcMoved :
    chosen.optab.wf = true ∧
    handler chosen 0xE8 (Instr.descriptor .inx) (sample.setPhase (.execute 0xE8 (Instr.descriptor .inx) 0xFFFF)) =
      .next (incrementX chosen (sample.setPhase (.execute 0xE8 (Instr.descriptor .inx) 0xFFFF))) ∧
    (incrementX chosen (sample.setPhase (.execute 0xE8 (Instr.descriptor .inx) 0xFFFF))).pc = 0xFFFF ∧
    (incrementX chosen (sample.setPhase (.execute 0xE8 (Instr.descriptor .inx) 0x1234))).pc ≠ 0x1234 ∧
    (incrementX chosen (sample.setPhase (.execute 0xE8 (Instr.descriptor .inx) 0x1234))).phase ≠ .halted ∧
    handler chosen 0x00 (Instr.descriptor .brk) sample = .next (sample.setPhase .halted) :=
  ⟨by decide, rfl, rfl, by decide, by decide, rfl⟩
theorem witness_ProgramCounterAdvancesByTheLength :
    sample.phase = .fetch ∧ decode sample.instrBytes = .ok (.ldaImmediate 0x05, [0x00]) ∧ Instr.ldaImmediate 0x05 ≠ .brk := by decide
/-- A state about to fetch 0xFF at the top of memory. -/
def unsupportedAtTop : State := ⟨0, 0, 0, 0xFFFF, 0x24, [(0xFFFF, 0xFF)], .fetch⟩
theorem witness_UnsupportedOpcodeFaultIsPrecise :
    unsupportedAtTop.phase = .fetch ∧ ∀ i : Instr, i.opcode ≠ unsupportedAtTop.mem.readByte unsupportedAtTop.pc := by
  refine ⟨rfl, fun i => ?_⟩
  rw [show unsupportedAtTop.mem.readByte unsupportedAtTop.pc = 0xFF from rfl]
  cases i <;> simp [Instr.opcode]
theorem witness_StepFromFetchCompletesExactlyOnSupportedBytes :
    sample.phase = .fetch ∧ (Instr.ldaImmediate 0x05).opcode = sample.mem.readByte sample.pc ∧ unsupportedAtTop.phase = .fetch := by decide
theorem witness_HaltAndFaultAreFinalForTheRun :
    (sample.setPhase .halted).phase = .halted ∧
    (sample.setPhase (.faulted (.unsupportedOpcode 0xFF))).phase = .faulted (.unsupportedOpcode 0xFF) ∧
    (sample.setPhase (.faulted (.unsupportedAddressingMode 9))).phase = .faulted (.unsupportedAddressingMode 9) := ⟨rfl, rfl, rfl⟩
theorem witness_ImpliedOperandFaultsBeforeAnyWrite :
    impliedLda.optab.wf = true ∧
    (sample.setPhase (.execute 0xA9 ⟨.loadAccumulator, 1, none, .implied⟩ 0xFFFF)).phase =
      .execute 0xA9 ⟨.loadAccumulator, 1, none, .implied⟩ 0xFFFF := by decide
/-- A table that names an identity without a handler, and one that is not well formed. -/
def otherRow : Config := { chosen with optab := [tableRow 0xEA (.other 7) 1 .implied] }
def illFormed : Config := { chosen with optab := [tableRow 0xA9 .loadAccumulator 1 .immediate] }
theorem witness_TableDefectsFaultOrAreRefused :
    otherRow.optab.wf = true ∧ (sample.setPhase (.decode 0xEA)).phase = .decode 0xEA ∧
    otherRow.optab.find 0xEA = some ⟨.other 7, 1, none, .implied⟩ ∧ illFormed.optab.wf = false := by decide
/-- A table that gives StoreAccumulator the mode Immediate. -/
def immediateStore : Config := { chosen with optab := [tableRow 0xA9 .storeAccumulator 2 .immediate] }
theorem witness_StoreThroughImmediateOverwritesItsOwnOperand :
    immediateStore.optab.wf = true ∧ sample.phase = .fetch ∧
    immediateStore.optab.find (sample.mem.readByte sample.pc) = some ⟨.storeAccumulator, 2, none, .immediate⟩ := by decide

theorem witness_StepKeepsMemoryCanonical : sample.mem.wf = true ∧ after sample = some (0x05, 0x02, 0x24, 0x0001) := by decide
theorem witness_HostCallsKeepMemoryCanonical :
    sample.mem.wf = true ∧
    load [0x00] sample = .next { sample with mem := [(0x0000, 0x05), (0xFFFD, 0x80), (0xFFFF, 0xA9)] } ∧
    hostWriteWord chosen 0xFFFF 0xBEEF sample = .ok { sample with mem := [(0x0000, 0xBE), (0xFFFF, 0xEF)] } := ⟨by decide, rfl, rfl⟩
theorem witness_StepKeepsZeroAndNegativeExclusive : ZnExclusive sample ∧ after sample = some (0x05, 0x02, 0x24, 0x0001) :=
  ⟨by unfold ZnExclusive; decide, by decide⟩
/-- Two steps: LoadAccumulator across the top of memory, then Break. -/
theorem witness_NoStepsWriteTheInertFlagsOrY :
    Reaches sample { sample with a := 0x05, pc := 0x0002, phase := .halted } :=
  .tail (.tail (.refl sample) (u := { sample with a := 0x05, pc := 0x0001 }) rfl) rfl
theorem witness_OnlyStoreAccumulatorWritesMemory :
    sample.phase = .fetch ∧ decode sample.instrBytes = .ok (.ldaImmediate 0x05, [0x00]) ∧
    (Instr.ldaImmediate 0x05).mnemonic ≠ .storeAccumulator ∧ after sample = some (0x05, 0x02, 0x24, 0x0001) := by decide
/-- LoadAccumulator for the first clause; StoreAccumulator and Break for the second. -/
theorem witness_FlagWritersAreThoseOfTheTable :
    decode sample.instrBytes = .ok (.ldaImmediate 0x05, [0x00]) ∧ (Instr.ldaImmediate 0x05).mnemonic ≠ .addWithCarry ∧
    decode (at8000 1 0 0 [(0x8000, 0x85), (0x8001, 0x10)]).instrBytes = .ok (.staZeroPage 0x10, [0x00]) ∧
    (Instr.staZeroPage 0x10).mnemonic = .storeAccumulator ∧ after (at8000 1 0 0 [(0x8000, 0x85), (0x8001, 0x10)]) = some (1, 0, 0x24, 0x8002) ∧
    decode State.reset.instrBytes = .ok (.brk, [0x00, 0x00]) ∧ Instr.brk.mnemonic = .brk ∧
    after State.reset = some (0, 0, 0x24, 0x0001) := by decide
/-- The stored byte is no opcode (0x02), and is one (0xE8). -/
theorem witness_StoredByteIsTheNextOpcodeFetched :
    (at8000 0x02 0 0 [(0x8000, 0x8D), (0x8001, 0x03), (0x8002, 0x80)]).mem.wf = true ∧
    decode (at8000 0x02 0 0 [(0x8000, 0x8D), (0x8001, 0x03), (0x8002, 0x80)]).instrBytes = .ok (.staAbsolute (0x8000 + 3), []) ∧
    (∀ i : Instr, i.opcode ≠ 0x02) ∧
    decode (at8000 0xE8 0 0 [(0x8000, 0x8D), (0x8001, 0x03), (0x8002, 0x80)]).instrBytes = .ok (.staAbsolute (0x8000 + 3), []) ∧
    ∃ i : Instr, i.opcode = 0xE8 := by
  refine ⟨by decide, by decide, fun i => ?_, by decide, .inx, rfl⟩
  cases i <;> simp [Instr.opcode]

theorem witness_ResetLoadsTheVectorAndTheFlagPattern :
    chosen.resetClearsY = true ∧ Config.resetClearsY { chosen with resetClearsY := false } = false := ⟨rfl, rfl⟩
/-- A longest image (its last byte at 0xFFFF) and one byte longer; an image byte at 0x8000; an address below and one above the image. -/
theorem witness_LoadPlacesTheImageAndTheVector :
    sample.mem.wf = true ∧ 0x8000 < (List.replicate 0x8001 (0xE8 : Byte)).length ∧ (List.replicate 0x8000 (0xE8 : Byte)).length ≤ 0x8000 ∧
    (List.replicate 0x8000 (0xE8 : Byte))[0x7FFF]? = some 0xE8 ∧ ([0xA9] : List Byte)[0]? = some 0xA9 ∧
    (0x7FFF : Addr).toNat < 0x8000 ∧ 0x8000 + ([0xA9] : List Byte).length ≤ (0x8001 : Addr).toNat := by
  refine ⟨by decide, ?_, ?_, ?_, rfl, by decide, by decide⟩
  · rw [List.length_replicate]; decide
  · rw [List.length_replicate]
  · rw [List.getElem?_replicate]; rfl
theorem witness_LoadThenResetStartsAtTheOrigin :
    sample.mem.wf = true ∧ load [0x00] sample = .next { sample with mem := [(0x0000, 0x05), (0xFFFD, 0x80), (0xFFFF, 0xA9)] } ∧
    chosen.resetClearsY = true := ⟨by decide, rfl, rfl⟩
theorem witness_RunEndIsStableAndForgetsTheLastRun :
    run 1 State.reset = .halted { State.reset with pc := 0x0001, phase := .halted } ∧ ∀ u, run 1 State.reset ≠ .unfinished u :=
  ⟨rfl, fun _ h => by rw [show run 1 State.reset = .halted { State.reset with pc := 0x0001, phase := .halted } from rfl] at h; cases h⟩
theorem witness_HaltedRunsEndJustAfterABreak :
    run 2 sample = .halted { sample with a := 0x05, pc := 0x0002, phase := .halted } := by rfl
theorem witness_PlacedWordIsTheInstructionRun :
    State.reset.mem.wf = true ∧ decodeTableWord 24 0xFFFC8D = some (.staAbsolute 0xFFFC) ∧ decodeTableWord 8 0x00 = some .brk := by decide

end Sys2Proof.Tests
end

section
/-!
The host's byte accessors on memory (20_memory.md R33): what a byte read returns after a byte write, and what the write leaves.
-/
open Sys2Proof Sys2Proof.Machine Sys2Proof.Claims

namespace Sys2Proof.Proofs.ByteAccess

/-- Replacing the memory touches no register. -/
theorem sameRegisters_setMem (s : State) (m : Memory) : SameRegisters s (s.setMem m) := ⟨rfl, rfl, rfl, rfl, rfl⟩

theorem hostReadByte_hostWriteByte_same {s : State} (h : s.mem.wf = true) (addr : Addr) (v : Byte) :
    hostReadByte addr (hostWriteByte addr v s) = v := Memory.readByte_writeByte_same h addr v

theorem hostReadByte_hostWriteByte_ne {s : State} {addr other : Addr} (h : other ≠ addr) (v : Byte) :
    hostReadByte other (hostWriteByte addr v s) = hostReadByte other s := Memory.readByte_writeByte_ne h v

/-- Settles O6: the read-after-write laws of memory, through the accessors; the rest of the state is that of `setMem`. -/
theorem byteWriteChangesThatByteAlone : Obligations.ByteWriteChangesThatByteAlone := by
  intro s addr other v hwf
  refine ⟨?readsBack, ?otherBytes, ?registers, ?phase⟩
  case readsBack => exact hostReadByte_hostWriteByte_same hwf addr v
  case otherBytes => exact fun hne => hostReadByte_hostWriteByte_ne hne v
  case registers => exact sameRegisters_setMem s _
  case phase => exact State.setMem_phase s _

end Sys2Proof.Proofs.ByteAccess
end

section
/-!
The flag-computation unit (40_flag_unit.md): its ports, the one bit FlagTest reads, what UpdateZN writes and keeps (R74), and the carry
out of an addition (R77).
-/
open Sys2Proof Sys2Proof.Machine Sys2Proof.Claims

namespace Sys2Proof.Proofs.FlagUnit

/-! ## The ports, one operation code each -/

section Ports
variable {i : FcuIn}

theorem fcu_pOut_updateZN (h : i.fop = 1) : (fcu i).pOut = updateZN i.pIn i.val := by simp [fcu, h]

theorem fcu_r_updateZN (h : i.fop = 1) : (fcu i).r = i.val := by simp [fcu, h]

theorem fcu_pOut_insert (h : i.fop = 3) : (fcu i).pOut = flagInsert i.pIn i.fsel := by simp [fcu, h]

theorem fcu_pOut_remove (h : i.fop = 4) : (fcu i).pOut = flagRemove i.pIn i.fsel := by simp [fcu, h]

end Ports

/-! ## FlagInsert, FlagRemove, FlagTest -/

/-- FlagTest as arithmetic on the number of the byte. -/
theorem flagTest_iff (p : Byte) (f : BitVec 3) : flagTest p f = true ↔ p.toNat / 2 ^ f.toNat % 2 = 1 := by
  rw [flagTest, BitVec.getLsbD, Nat.testBit_eq_decide_div_mod_eq, decide_eq_true_iff]

/-- Settles O12: the bit laws of `flagInsert` and `flagRemove`, and the unit at the codes INS and REM. -/
theorem flagInsertRemoveTestTouchOneBit : Obligations.FlagInsertRemoveTestTouchOneBit := by
  intro i k _
  refine ⟨fcu_pOut_insert, fcu_pOut_remove, ?testPort, ?inserted, ?removed, ?tested⟩
  case testPort => rfl
  case inserted => exact flagInsert_bit i.pIn i.fsel k
  case removed => exact flagRemove_bit i.pIn i.fsel k
  case tested => exact flagTest_iff i.pIn i.fsel

/-! ## UpdateZN -/

theorem zero_updateZN_iff (p v : Byte) : flagOf (updateZN p v) .zero = true ↔ v = 0 := by
  simp [flagOf_updateZN]

theorem negative_updateZN_iff (p v : Byte) : flagOf (updateZN p v) .negative = true ↔ 128 ≤ v.toNat := by
  rw [flagOf_updateZN, if_pos rfl, byte_bit7]

theorem flagOf_updateZN_other {f : Flag} (hz : f ≠ .zero) (hn : f ≠ .negative) (p v : Byte) :
    flagOf (updateZN p v) f = flagOf p f := by
  simp [flagOf_updateZN, hz, hn]

theorem znWritten_updateZN (p v : Byte) : ZnWritten v p (updateZN p v) :=
  ⟨zero_updateZN_iff p v, negative_updateZN_iff p v, fun _ hz hn => flagOf_updateZN_other hz hn p v⟩

/-- The value 0 has bit 7 clear, so UpdateZN never leaves Zero and Negative both set. -/
theorem updateZN_exclusive (p v : Byte) :
    ¬(flagOf (updateZN p v) .zero = true ∧ flagOf (updateZN p v) .negative = true) := by
  rw [zero_updateZN_iff, negative_updateZN_iff]
  rintro ⟨rfl, h⟩
  exact absurd h (by decide)

/-- Settles O13: UpdateZN flag by flag, and the unit at the code ZN. -/
theorem updateZNWritesZeroAndNegativeAlone : Obligations.UpdateZNWritesZeroAndNegativeAlone := fun p v _ =>
  ⟨znWritten_updateZN p v, updateZN_exclusive p v, fun h => ⟨fcu_pOut_updateZN h, fcu_r_updateZN h⟩⟩

/-! ## The carry out of an addition -/

theorem toNat_carryIn (p : Byte) : (carryIn p).toNat = carryOf p := by
  simp only [carryIn, carryOf, Bool.toNat, Bool.cond_eq_ite]

theorem carryOut_iff (a m : Byte) (cin : Bool) : carryOut a m cin = true ↔ 255 < a.toNat + m.toNat + cin.toNat := by
  rw [carryOut, decide_eq_true_iff, sum9_toNat]

/-- A 9-bit number exceeds 255 exactly when its top bit is set. -/
theorem carryOut_eq_bit8 (a m : Byte) (cin : Bool) : carryOut a m cin = (sum9 a m cin).getLsbD 8 := by
  have hsum := (sum9 a m cin).isLt
  rw [carryOut, BitVec.getLsbD, Nat.testBit_eq_decide_div_mod_eq, decide_eq_decide]
  omega

/-- Result and carry are the low byte and the ninth bit of the sum, and a sum of two bytes and a carry needs no tenth. -/
theorem addResult_add_carryOut (a m : Byte) (cin : Bool) :
    (addResult a m cin).toNat + 256 * (if carryOut a m cin then 1 else 0) = a.toNat + m.toNat + cin.toNat := by
  have ha := a.isLt
  have hm := m.isLt
  have hc := cin.toNat_le
  simp only [carryOut_iff, addResult_toNat]
  split <;> omega

theorem carry_addFlags (policy : AdcOverflow) (p a m : Byte) :
    flagOf (addFlags policy p a m) .carry = carryOut a m (carryIn p) := by
  simp [flagOf_addFlags]

/-- Settles O14: the 9-bit sum as a number, its ninth bit, and AddFlags at Carry. -/
theorem carryIsTheNinthBitOfTheSum : Obligations.CarryIsTheNinthBitOfTheSum := by
  intro a m p policy
  rw [← toNat_carryIn]
  exact ⟨sum9_toNat a m _, carryOut_iff a m _, carryOut_eq_bit8 a m _, addResult_add_carryOut a m _, carry_addFlags policy p a m⟩

end Sys2Proof.Proofs.FlagUnit
end

section
/-!
The addressing-mode resolver (41_addressing_resolver.md): the modes without an operand address, the zero-page modes (R92 to R94) and
Indirect_X (R98), as numbers and in every configuration.
-/
open Sys2Proof Sys2Proof.Machine Sys2Proof.Claims

namespace Sys2Proof.Proofs.Resolver

/-! ## The addresses of the operand forms as numbers -/

theorem toNat_zeroPageAddr (d8 : Byte) : (zeroPageAddr d8).toNat = d8.toNat := zext16_toNat d8

/-- The addition is one of bytes, so its carry is gone before the address is formed. -/
theorem toNat_zeroPageIndexedAddr (d8 index : Byte) :
    (zeroPageIndexedAddr d8 index).toNat = (d8.toNat + index.toNat) % 256 := by
  rw [zeroPageIndexedAddr, zext16_toNat, BitVec.toNat_add]

theorem zext16_eq_ofNat (b : Byte) : zext16 b = BitVec.ofNat 16 b.toNat := (BitVec.ofNat_toNat 16 b).symm

/-- `ZpReadWord` (20_memory.md R35) as a number: both bytes of the word are in page 0, also for the pointer 0xFF. -/
theorem toNat_zpReadWord (m : Memory) (ptr : Byte) :
    (m.zpReadWord ptr).toNat =
      (m.readByte (BitVec.ofNat 16 ptr.toNat)).toNat +
        256 * (m.readByte (BitVec.ofNat 16 ((ptr.toNat + 1) % 256))).toNat := by
  have hnext : (ptr + 1).toNat = (ptr.toNat + 1) % 256 := BitVec.toNat_add ptr 1
  rw [Memory.zpReadWord, pair_toNat, zext16_eq_ofNat, zext16_eq_ofNat, hnext]

/-! ## What Resolve answers, one mode each -/

section Modes
variable (cfg : Config) (pc : Addr) (x y : Byte) (m : Memory)

theorem resolve_immediate : resolve cfg .immediate pc x y m = .ok pc := rfl

theorem resolve_implied : resolve cfg .implied pc x y m = .error (.unsupportedAddressingMode Mode.implied.tag) := rfl

theorem resolve_zeroPage : resolve cfg .zeroPage pc x y m = .ok (zeroPageAddr (m.readByte pc)) := rfl

theorem resolve_zeroPageX : resolve cfg .zeroPageX pc x y m = .ok (zeroPageIndexedAddr (m.readByte pc) x) := rfl

theorem resolve_zeroPageY : resolve cfg .zeroPageY pc x y m = .ok (zeroPageIndexedAddr (m.readByte pc) y) := rfl

theorem resolve_indirectX : resolve cfg .indirectX pc x y m = .ok (m.zpReadWord (m.readByte pc + x)) := rfl

end Modes

/-! ## The statements -/

/-- Settles O22: the pointer is a sum of bytes, and the address is the word that `ZpReadWord` reads there. -/
theorem resolveIndirectXWrapsThePointer : Obligations.ResolveIndirectXWrapsThePointer := by
  intro cfg pc x y m ptr hptr
  have hsum : (m.readByte pc + x).toNat = ptr := by rw [hptr, BitVec.toNat_add]
  refine ⟨_, resolve_indirectX cfg pc x y m, ?_⟩
  rw [toNat_zpReadWord, hsum]

/-- Settles O19: the two modes that read no operand byte. -/
theorem resolveImmediateAndImplied : Obligations.ResolveImmediateAndImplied := fun cfg pc x y m =>
  ⟨resolve_immediate cfg pc x y m, resolve_implied cfg pc x y m⟩

/-- Settles O20: each mode's answer, read as a number. -/
theorem resolveZeroPageModesWrapModulo256 : Obligations.ResolveZeroPageModesWrapModulo256 := by
  intro cfg pc x y m
  refine ⟨?zeroPage, ?zeroPageX, ?zeroPageY⟩
  case zeroPage => exact ⟨_, resolve_zeroPage cfg pc x y m, toNat_zeroPageAddr _⟩
  case zeroPageX => exact ⟨_, resolve_zeroPageX cfg pc x y m, toNat_zeroPageIndexedAddr _ x⟩
  case zeroPageY => exact ⟨_, resolve_zeroPageY cfg pc x y m, toNat_zeroPageIndexedAddr _ y⟩

end Sys2Proof.Proofs.Resolver
end

section
/-!
LoadAccumulator and StoreAccumulator (43_load_store.md R130, R131): each does one thing to the state whatever the mode, so the modes
differ in the effective address alone.
-/
open Sys2Proof Sys2Proof.Machine Sys2Proof.Claims

namespace Sys2Proof.Proofs.LoadStore

/-! ## The effect, for any value and any address -/

/-- Zero and Negative are from the loaded value under either policy of U3, since it is the new A. -/
theorem loads_loadValue (cfg : Config) (v : Byte) (s : State) : Loads v s (loadValue cfg v s) := by
  have hflags : ZnWritten v s.p (loadValue cfg v s).p := by
    rw [loadValue_p]
    exact FlagUnit.znWritten_updateZN s.p v
  exact ⟨loadValue_a cfg s v, hflags, loadValue_x cfg s v, loadValue_y cfg s v, loadValue_pc cfg s v, loadValue_phase cfg s v,
    fun _ => by rw [loadValue_mem]⟩

theorem loads_loadFrom (cfg : Config) (ea : Addr) (s : State) : Loads (s.mem.readByte ea) s (loadFrom cfg ea s) :=
  loads_loadValue cfg (s.mem.readByte ea) s

theorem stores_storeTo {s : State} (hwf : s.mem.wf = true) (ea : Addr) : Stores ea s (storeTo ea s) := by
  have hread : (storeTo ea s).mem.readByte ea = s.a := Memory.readByte_writeByte_same hwf ea s.a
  have hother : ∀ addr, addr ≠ ea → (storeTo ea s).mem.readByte addr = s.mem.readByte addr := fun _ hne =>
    Memory.readByte_writeByte_ne hne s.a
  exact ⟨hread, hother, storeTo_a s ea, storeTo_x s ea, storeTo_y s ea, storeTo_p s ea, storeTo_pc s ea, storeTo_phase s ea⟩

/-! ## The mode without an address -/

theorem resolve_implied (cfg : Config) (s : State) :
    s.resolve cfg .implied = .error (.unsupportedAddressingMode Mode.implied.tag) :=
  Resolver.resolve_implied cfg s.pc s.x s.y s.mem

theorem loadAccumulator_implied (cfg : Config) (s : State) :
    loadAccumulator cfg .implied s = raiseFault (.unsupportedAddressingMode Mode.implied.tag) s := by
  rw [loadAccumulator, resolve_implied]

theorem storeAccumulator_implied (cfg : Config) (s : State) :
    storeAccumulator cfg .implied s = raiseFault (.unsupportedAddressingMode Mode.implied.tag) s := by
  rw [storeAccumulator, resolve_implied]

/-! ## The statements -/

/-- Settles O27: each form's arm of `exec` is `loadValue` of its operand or `loadFrom` its address. -/
theorem loadAccumulatorLoadsAndSetsZN : Obligations.LoadAccumulatorLoadsAndSetsZN := by
  intro s d8 d16 cfg
  refine ⟨?immediate, ?zeroPage, ?zeroPageX, ?absolute, ?absoluteX, ?absoluteY, ?indirectX, ?indirectY, ?implied⟩
  case immediate => exact ⟨_, rfl, loads_loadValue chosen d8 s⟩
  case zeroPage => exact ⟨_, rfl, loads_loadFrom chosen (zeroPageAddr d8) s⟩
  case zeroPageX => exact ⟨_, rfl, loads_loadFrom chosen (zeroPageIndexedAddr d8 s.x) s⟩
  case absolute => exact ⟨_, rfl, loads_loadFrom chosen (absoluteAddr d16) s⟩
  case absoluteX => exact ⟨_, rfl, loads_loadFrom chosen (absoluteIndexedAddr d16 s.x) s⟩
  case absoluteY => exact ⟨_, rfl, loads_loadFrom chosen (absoluteIndexedAddr d16 s.y) s⟩
  case indirectX => exact ⟨_, rfl, loads_loadFrom chosen (indirectXAddr s.mem d8 s.x) s⟩
  case indirectY => exact ⟨_, rfl, loads_loadFrom chosen (indirectYAddr chosen.indyPolicy s.mem d8 s.y) s⟩
  case implied => exact loadAccumulator_implied cfg s

/-- Settles O28: each form's arm of `exec` is `storeTo` its address. -/
theorem storeAccumulatorStoresOneByte : Obligations.StoreAccumulatorStoresOneByte := by
  intro s d8 d16 cfg hwf
  refine ⟨?zeroPage, ?zeroPageX, ?absolute, ?absoluteX, ?absoluteY, ?indirectX, ?indirectY, ?implied⟩
  case zeroPage => exact ⟨_, rfl, stores_storeTo hwf (zeroPageAddr d8)⟩
  case zeroPageX => exact ⟨_, rfl, stores_storeTo hwf (zeroPageIndexedAddr d8 s.x)⟩
  case absolute => exact ⟨_, rfl, stores_storeTo hwf (absoluteAddr d16)⟩
  case absoluteX => exact ⟨_, rfl, stores_storeTo hwf (absoluteIndexedAddr d16 s.x)⟩
  case absoluteY => exact ⟨_, rfl, stores_storeTo hwf (absoluteIndexedAddr d16 s.y)⟩
  case indirectX => exact ⟨_, rfl, stores_storeTo hwf (indirectXAddr s.mem d8 s.x)⟩
  case indirectY => exact ⟨_, rfl, stores_storeTo hwf (indirectYAddr chosen.indyPolicy s.mem d8 s.y)⟩
  case implied => exact storeAccumulator_implied cfg s

end Sys2Proof.Proofs.LoadStore
end

section
/-!
`reset()` (70_reset_and_hazards.md R192, R197): what it leaves of the state before it, and what of that state it reads.
-/
open Sys2Proof Sys2Proof.Machine Sys2Proof.Claims

namespace Sys2Proof.Proofs.Reset

variable {cfg : Config}

@[simp] theorem hostReset_mem (s : State) : (hostReset cfg s).mem = s.mem := rfl

theorem hostReset_y (s : State) : (hostReset cfg s).y = if cfg.resetClearsY then 0x00 else s.y := rfl

theorem hostReset_y_of_kept (h : cfg.resetClearsY = false) (s : State) : (hostReset cfg s).y = s.y := by
  simp [hostReset_y, h]

/-- All that a reset reads of the state before it is memory, for the vector, and Y where RESET_CLEARS_Y is false (D9). -/
theorem hostReset_congr {s t : State} (hmem : s.mem = t.mem) (hy : cfg.resetClearsY = false → s.y = t.y) :
    hostReset cfg s = hostReset cfg t := by
  cases h : cfg.resetClearsY with
  | true => simp [hostReset, h, hmem]
  | false => simp [hostReset, h, hmem, hy h]

/-- Settles O53: a reset keeps all that the next one reads. -/
theorem resetIsIdempotent : Obligations.ResetIsIdempotent := fun _ s =>
  hostReset_congr (hostReset_mem s) fun h => hostReset_y_of_kept h s

end Sys2Proof.Proofs.Reset
end

section
/-!
The decoder against the encoder (30_encoding.md R50 to R59): each inverts the other, and the opcode bytes are those of the table.
-/
open Sys2Proof Sys2Proof.Machine Sys2Proof.Claims

namespace Sys2Proof.Proofs.Codec

/-! ## From an instruction to its bytes and back -/

theorem decodeBytes_operand (i : Instr) (rest : List Byte) :
    decodeBytes i.opcode ((i.operand ++ rest).getD 0 0) ((i.operand ++ rest).getD 1 0) = some i := by
  simp only [decodeBytes, find_opcode, Instr.descriptor, instrOf_operand]

/-- The opcode byte finds the descriptor, whose mode tells how many of the bytes after it are the operand. -/
theorem decode_encode (i : Instr) (rest : List Byte) : decode (encode i ++ rest) = .ok (i, rest) := by
  have hlong : ¬(i.operand ++ rest).length < i.length - 1 := by rw [List.length_append, operand_length]; omega
  have hdrop : (i.operand ++ rest).drop (i.length - 1) = rest := by rw [← operand_length, List.drop_left]
  rw [encode, List.cons_append, decode_cons, decodeBytes_operand]
  simp only [if_neg hlong, hdrop]

/-- Settles O2. -/
theorem decodeOfEncodeIsTheInstruction : Obligations.DecodeOfEncodeIsTheInstruction := decode_encode

/-! ## From bytes to an instruction -/

/-- The decoder answers an instruction exactly where the bytes name one and its operand bytes are all there. -/
theorem decode_cons_ok_iff {b : Byte} {tail rest : List Byte} {i : Instr} :
    decode (b :: tail) = .ok (i, rest) ↔
      decodeBytes b (tail.getD 0 0) (tail.getD 1 0) = some i ∧ i.length - 1 ≤ tail.length ∧ tail.drop (i.length - 1) = rest := by
  rw [decode_cons]
  cases decodeBytes b (tail.getD 0 0) (tail.getD 1 0) with
  | none => simp
  | some j =>
    by_cases hshort : tail.length < j.length - 1
    · simp only [if_pos hshort, reduceCtorEq, Option.some.injEq, false_iff]
      rintro ⟨rfl, hle, _⟩
      omega
    · simp only [if_neg hshort, Except.ok.injEq, Prod.mk.injEq, Option.some.injEq]
      constructor
      · rintro ⟨rfl, hrest⟩
        exact ⟨rfl, by omega, hrest⟩
      · rintro ⟨rfl, _, hrest⟩
        exact ⟨rfl, hrest⟩

/-- Reading past the end of a list does not matter for the part of it that is there. -/
theorem take_of_getD_pair {n : Nat} {tail : List Byte} (htwo : n ≤ 2) (hlen : n ≤ tail.length) :
    [tail.getD 0 0, tail.getD 1 0].take n = tail.take n := by
  match n, tail, htwo, hlen with
  | 0, _, _, _ => rfl
  | 1, _ :: _, _, _ => rfl
  | 2, _ :: _ :: _, _, _ => rfl

theorem operandBytes_le_two (mode : Mode) : mode.operandBytes ≤ 2 := by cases mode <;> decide

/-- Settles O3: the operand assembled from the bytes is as many of them as the mode takes, and the rest is left over. -/
theorem decodedBytesAreTheEncoding : Obligations.DecodedBytesAreTheEncoding := by
  intro bytes rest i h
  cases bytes with
  | nil => simp [decode] at h
  | cons b tail =>
    obtain ⟨hdec, hlen, hrest⟩ := decode_cons_ok_iff.mp h
    obtain ⟨hop, hoperand⟩ := decodeBytes_some hdec
    have hcount : i.length - 1 = i.mode.operandBytes := Nat.add_sub_cancel_left 1 _
    rw [hcount] at hlen hrest
    rw [take_of_getD_pair (operandBytes_le_two i.mode) hlen] at hoperand
    rw [encode, hop, hoperand, ← hrest, List.cons_append, List.take_append_drop]

/-! ## Opcode bytes -/

theorem decodeBytes_eq_none_iff (b b1 b2 : Byte) : decodeBytes b b1 b2 = none ↔ ∀ i : Instr, i.opcode ≠ b := by
  refine ⟨decodeBytes_none, fun hno => ?_⟩
  cases hdec : decodeBytes b b1 b2 with
  | none => rfl
  | some i => exact absurd (decodeBytes_some hdec).1 (hno i)

theorem decode_unsupported_iff (b : Byte) (tail : List Byte) :
    decode (b :: tail) = .error (.unsupportedOpcode b) ↔ decodeBytes b (tail.getD 0 0) (tail.getD 1 0) = none := by
  rw [decode_cons]
  cases decodeBytes b (tail.getD 0 0) (tail.getD 1 0) with
  | none => simp
  | some i => by_cases hshort : tail.length < i.length - 1 <;> simp only [hshort, if_true, if_false] <;> simp

/-- Settles O4: the decoder names the byte where it has no row, and every row is some instruction's. -/
theorem unsupportedExactlyWhereNoInstructionHasTheOpcode : Obligations.UnsupportedExactlyWhereNoInstructionHasTheOpcode :=
  fun b tail => (decode_unsupported_iff b tail).trans (decodeBytes_eq_none_iff b _ _)

/-- Every row is the descriptor of an instruction with that opcode byte. -/
theorem exists_instr_of_row {b : Byte} {d : Descriptor} (h : opcodeTable.find b = some d) :
    ∃ i : Instr, i.opcode = b ∧ i.descriptor = d := by
  obtain ⟨i, _, rfl⟩ := instrOf_of_row h 0 0
  rw [find_opcode, Option.some.injEq] at h
  exact ⟨i, rfl, h⟩

/-- Settles O5: the row is the descriptor of its instruction, and a descriptor's length is that of the encoding. -/
theorem tableRowsAreTheInstructionsDescriptors : Obligations.TableRowsAreTheInstructionsDescriptors := by
  intro b d h
  obtain ⟨i, hop, rfl⟩ := exists_instr_of_row h
  exact ⟨rfl, i, hop, rfl, encode_length i⟩

/-- Settles O1: the words that decode are encodings with bytes after them; the last two are evaluated. -/
theorem decodesWordsOfTheTable : Obligations.DecodesWordsOfTheTable :=
  ⟨decode_encode (.ldaImmediate 0x05) [0xAA], decode_encode .tax [0xE8], decode_encode .inx [0x00], decode_encode .brk [],
    decode_encode (.staZeroPageX 0x01) [0x00], decode_encode (.staAbsolute 0x1234) [0xEA], decode_encode (.ldaIndirectX 0x0F) [],
    decode_encode (.adcAbsoluteX 0x00FF) [], rfl, rfl⟩

end Sys2Proof.Proofs.Codec
end

section
/-!
The step (42_execution_engine.md R110 to R116): what each identity's handler can do, which bytes a step from Fetch runs, and what follows
the handler.
-/
open Sys2Proof Sys2Proof.Machine Sys2Proof.Claims

namespace Sys2Proof.Proofs.Step

/-! ## The effect of an instruction, by its identity -/

/-- What an instruction of an identity can leave: `HandlerEffect` with the identity that has the effect. -/
inductive EffectOf (s : State) : Mnemonic → State → Prop where
  | load (v : Byte) : EffectOf s .loadAccumulator (loadValue chosen v s)
  | store (ea : Addr) : EffectOf s .storeAccumulator (storeTo ea s)
  | add (m : Byte) : EffectOf s .addWithCarry (addValue chosen m s)
  | transfer : EffectOf s .transferAccumulatorToX (produceX chosen s.a s)
  | increment : EffectOf s .incrementX (produceX chosen (s.x + 1) s)
  | halt : EffectOf s .brk (breakHalt s)

theorem exec_effectOf (i : Instr) (s : State) : ∃ t, exec i s = .next t ∧ EffectOf s i.mnemonic t := by
  cases i
  case brk => exact ⟨_, rfl, .halt⟩
  case tax => exact ⟨_, rfl, .transfer⟩
  case inx => exact ⟨_, rfl, .increment⟩
  case ldaImmediate | ldaZeroPage | ldaZeroPageX | ldaAbsolute | ldaAbsoluteX | ldaAbsoluteY | ldaIndirectX | ldaIndirectY =>
    exact ⟨_, rfl, .load _⟩
  case staZeroPage | staZeroPageX | staAbsolute | staAbsoluteX | staAbsoluteY | staIndirectX | staIndirectY =>
    exact ⟨_, rfl, .store _⟩
  case adcImmediate | adcZeroPage | adcZeroPageX | adcAbsolute | adcAbsoluteX | adcAbsoluteY | adcIndirectX | adcIndirectY =>
    exact ⟨_, rfl, .add _⟩

theorem eq_brk_of_mnemonic {i : Instr} (h : i.mnemonic = .brk) : i = .brk := by
  cases i
  case brk => rfl
  all_goals cases h

section EffectOf
variable {s t : State} {mn : Mnemonic}

theorem EffectOf.pc_eq (h : EffectOf s mn t) : t.pc = s.pc := by cases h <;> rfl

/-- Only Break changes the phase. -/
theorem EffectOf.phase_eq (h : EffectOf s mn t) (hmn : mn ≠ .brk) : t.phase = s.phase := by
  cases h with
  | halt => exact absurd rfl hmn
  | _ => rfl

/-- Only StoreAccumulator writes memory. -/
theorem EffectOf.mem_eq (h : EffectOf s mn t) (hmn : mn ≠ .storeAccumulator) : t.mem = s.mem := by
  cases h with
  | store ea => exact absurd rfl hmn
  | _ => rfl

/-- StoreAccumulator and Break write no flag. -/
theorem EffectOf.p_eq (h : EffectOf s mn t) (hmn : mn = .storeAccumulator ∨ mn = .brk) : t.p = s.p := by
  cases h with
  | store ea => rfl
  | halt => rfl
  | _ => simp at hmn

/-- Apart from AddWithCarry, the instructions that write flags write Zero and Negative only. -/
theorem EffectOf.flag_eq (h : EffectOf s mn t) (hmn : mn ≠ .addWithCarry) {f : Flag} (hz : f ≠ .zero) (hn : f ≠ .negative) :
    flagOf t.p f = flagOf s.p f := by
  cases h with
  | load v => rw [loadValue_p, FlagUnit.flagOf_updateZN_other hz hn]
  | transfer => rw [produceX_p_chosen, FlagUnit.flagOf_updateZN_other hz hn]
  | increment => rw [produceX_p_chosen, FlagUnit.flagOf_updateZN_other hz hn]
  | add m => exact absurd rfl hmn
  | store ea => rfl
  | halt => rfl

end EffectOf

/-! ## After the handler, as a whole state -/

section After
variable {pcb : Addr} {n : Nat} {t : State}

theorem afterHandler_of_pc_eq (hrun : t.phase ≠ .halted) (hpc : t.pc = pcb) :
    afterHandler pcb n t = { t with pc := t.pc + BitVec.ofNat 16 (n - 1), phase := .fetch } := by
  rw [afterHandler_running pcb n t hrun, advance, if_pos hpc]
  rfl

theorem afterHandler_of_pc_ne (hrun : t.phase ≠ .halted) (hpc : t.pc ≠ pcb) :
    afterHandler pcb n t = { t with phase := .fetch } := by
  rw [afterHandler_running pcb n t hrun, advance, if_neg hpc]
  rfl

/-- The fetch increment and the advance over the operand bytes together skip the instruction. -/
theorem toNat_pc_add_length (pc : Addr) (hn : 1 ≤ n) : (pc + 1 + BitVec.ofNat 16 (n - 1)).toNat = (pc.toNat + n) % 65536 := by
  rw [BitVec.toNat_add, BitVec.toNat_add, BitVec.toNat_ofNat, show (1 : Addr).toNat = 1 from rfl]
  omega

end After

/-! ## The three bytes a step from Fetch decodes -/

variable {s : State}

/-- Two bytes follow the opcode byte, so an instruction at pc is never truncated. -/
theorem decode_instrBytes_iff {i : Instr} :
    (∃ rest, decode s.instrBytes = .ok (i, rest)) ↔
      decodeBytes s.fetchOpcode (s.mem.readByte (s.pc + 1)) (s.mem.readByte (s.pc + 2)) = some i := by
  have hlen : i.length - 1 ≤ 2 := by
    rw [Instr.length, Nat.add_sub_cancel_left]
    exact Codec.operandBytes_le_two i.mode
  constructor
  · rintro ⟨rest, h⟩
    exact (Codec.decode_cons_ok_iff.mp h).1
  · exact fun h => ⟨_, Codec.decode_cons_ok_iff.mpr ⟨h, hlen, rfl⟩⟩

theorem opcode_of_decode {i : Instr} {rest : List Byte} (h : decode s.instrBytes = .ok (i, rest)) : i.opcode = s.fetchOpcode :=
  (decodeBytes_some (decode_instrBytes_iff.mp ⟨rest, h⟩)).1

theorem exists_decode_of_opcode {i : Instr} (h : i.opcode = s.fetchOpcode) :
    ∃ j rest, decode s.instrBytes = .ok (j, rest) := by
  cases hdec : decodeBytes s.fetchOpcode (s.mem.readByte (s.pc + 1)) (s.mem.readByte (s.pc + 2)) with
  | none => exact absurd h (decodeBytes_none hdec i)
  | some j => exact ⟨j, decode_instrBytes_iff.mpr hdec⟩

/-! ## A step from Fetch -/

theorem step_eq_runInstr {i : Instr} {rest : List Byte} (hp : s.phase = .fetch) (h : decode s.instrBytes = .ok (i, rest)) :
    step s = runInstr i s := by
  obtain ⟨j, rest', hj, hs⟩ | ⟨⟨e, he⟩, _⟩ := step_fetch_cases hp
  · rw [h] at hj
    cases hj
    exact hs
  · rw [h] at he
    cases he

/-- The step at an instruction: it completes, with an effect of the instruction's identity and then what follows a handler. -/
theorem step_of_decode {i : Instr} {rest : List Byte} (hp : s.phase = .fetch) (h : decode s.instrBytes = .ok (i, rest)) :
    ∃ t, exec i s.afterFetch = .next t ∧ EffectOf s.afterFetch i.mnemonic t ∧
      step s = .next (afterHandler (s.pc + 1) i.length t) := by
  obtain ⟨t, hexec, heff⟩ := exec_effectOf i s.afterFetch
  exact ⟨t, hexec, heff, by rw [step_eq_runInstr hp h, runInstr, hexec, andThen_next]⟩

/-- The same, read from the next state. -/
theorem effect_of_step {i : Instr} {rest : List Byte} {u : State} (hp : s.phase = .fetch)
    (h : decode s.instrBytes = .ok (i, rest)) (hu : step s = .next u) :
    ∃ t, EffectOf s.afterFetch i.mnemonic t ∧ u = afterHandler (s.pc + 1) i.length t := by
  obtain ⟨t, _, heff, hs⟩ := step_of_decode hp h
  rw [hs] at hu
  exact ⟨t, heff, (Host.Outcome.next.inj hu).symm⟩

theorem step_of_supported {i : Instr} (hp : s.phase = .fetch) (h : i.opcode = s.fetchOpcode) : ∃ t, step s = .next t := by
  obtain ⟨j, rest, hj⟩ := exists_decode_of_opcode h
  obtain ⟨t, _, _, hs⟩ := step_of_decode hp hj
  exact ⟨_, hs⟩

theorem step_of_unsupported (hp : s.phase = .fetch) (h : ∀ i : Instr, i.opcode ≠ s.fetchOpcode) :
    step s = raiseFault (.unsupportedOpcode s.fetchOpcode) s.afterFetch := by
  obtain ⟨i, rest, hi, _⟩ | ⟨_, hs⟩ := step_fetch_cases hp
  · exact absurd (opcode_of_decode hi) (h i)
  · exact hs

theorem step_halted (hp : s.phase = .halted) : step s = .next s := by simp [step, stepOnce, hp]

theorem step_faulted {k : FaultKind} (hp : s.phase = .faulted k) : step s = .fault (Fault.ofKind k s) := by
  simp [step, stepOnce, hp]

/-- Away from Fetch the step and the engine are one design. -/
theorem step_eq_iteration_of_ne_fetch (hp : s.phase ≠ .fetch) : step s = iteration chosen s := by
  cases h : s.phase with
  | fetch => exact absurd h hp
  | decode op => simp [step, stepOnce, h]
  | execute op d pcb => simp [step, stepOnce, h]
  | halted => simp [step_halted h, iteration, tick, chosen_table_wf, h]
  | faulted k => simp [step_faulted h, iteration, tick, chosen_table_wf, h]

/-- An engine in the middle of an iteration does not refuse to complete it. -/
theorem iteration_execute_ne_refused {cfg : Config} (hwf : cfg.optab.wf = true) {op : Byte} {d : Descriptor} {pcb : Addr}
    (hp : s.phase = .execute op d pcb) (r : Refusal) : iteration cfg s ≠ .refused r := by
  rw [iteration_execute pcb hwf hp]
  exact executePhase_ne_refused pcb op d r

theorem iteration_decode_ne_refused {cfg : Config} (hwf : cfg.optab.wf = true) {op : Byte} (hp : s.phase = .decode op)
    (r : Refusal) : iteration cfg s ≠ .refused r := by
  obtain ⟨d, _, _, he⟩ | he := iteration_decode_cases hwf hp
  · rw [he]
    exact executePhase_ne_refused s.pc op d r
  · rw [he]
    exact raiseFault_ne_refused _ _ r

/-! ## The statements -/

/-- Settles O33: no instruction changes pc, so the advance after a running one always skips the operand bytes. -/
theorem stepRunsTheDecodedInstruction : Obligations.StepRunsTheDecodedInstruction := by
  intro s i rest hp _ h
  obtain ⟨t, hexec, heff, hs⟩ := step_of_decode hp h
  have hpc : t.pc = s.pc + 1 := heff.pc_eq
  refine ⟨t, hexec, hpc, fun hhalt => ?_, fun hrun => ?_⟩
  · rw [hs, afterHandler_halted _ _ _ hhalt]
  · rw [hs, afterHandler_of_pc_eq hrun hpc]

/-- Settles O35: only Break halts, so any other instruction is followed by the advance over its operand bytes. -/
theorem programCounterAdvancesByTheLength : Obligations.ProgramCounterAdvancesByTheLength := by
  intro s i rest hp h hi
  obtain ⟨t, _, heff, hs⟩ := step_of_decode hp h
  have hphase : t.phase = .fetch := (heff.phase_eq fun hmn => hi (eq_brk_of_mnemonic hmn)).trans hp
  have hrun : t.phase ≠ .halted := by simp [hphase]
  have hpc : t.pc = s.pc + 1 := heff.pc_eq
  rw [afterHandler_of_pc_eq hrun hpc] at hs
  exact ⟨_, hs, hpc ▸ toNat_pc_add_length s.pc (instr_length_pos i), rfl⟩

/-- Settles O36: with no instruction to run, all that a step does is the fetch increment and the fault. -/
theorem unsupportedOpcodeFaultIsPrecise : Obligations.UnsupportedOpcodeFaultIsPrecise := fun _ hp h => step_of_unsupported hp h

/-- Settles O37: a byte that some instruction has completes, and any other raises a fault. -/
theorem stepFromFetchCompletesExactlyOnSupportedBytes : Obligations.StepFromFetchCompletesExactlyOnSupportedBytes := by
  intro s hp
  refine ⟨fun ⟨t, ht⟩ => ?_, fun ⟨i, hi⟩ => step_of_supported hp hi⟩
  by_contra hno
  rw [step_of_unsupported hp fun i hi => hno ⟨i, hi⟩] at ht
  exact raiseFault_ne_next _ _ _ ht

/-- Settles O38: phase by phase; a well-formed table is never refused, and neither `exec` nor a handler refuses. -/
theorem stepNeverRefuses : Obligations.StepNeverRefuses := by
  intro s r
  cases hp : s.phase with
  | fetch =>
    obtain ⟨i, rest, hi, _⟩ | ⟨_, hs⟩ := step_fetch_cases hp
    · obtain ⟨t, _, _, hs⟩ := step_of_decode hp hi
      simp [hs]
    · rw [hs]
      exact raiseFault_ne_refused _ _ r
  | decode op =>
    rw [step_eq_iteration_of_ne_fetch (by simp [hp])]
    exact iteration_decode_ne_refused chosen_table_wf hp r
  | execute op d pcb =>
    rw [step_eq_iteration_of_ne_fetch (by simp [hp])]
    exact iteration_execute_ne_refused chosen_table_wf hp r
  | halted => simp [step_halted hp]
  | faulted k => simp [step_faulted hp]

/-- Settles O39: the step of a phase that ends a run. -/
theorem haltAndFaultAreFinalForTheRun : Obligations.HaltAndFaultAreFinalForTheRun := fun _ _ _ =>
  ⟨step_halted, step_faulted, step_faulted⟩

/-- Settles O49: the step's effect is one of the instruction's identity, and only that of StoreAccumulator writes memory. -/
theorem onlyStoreAccumulatorWritesMemory : Obligations.OnlyStoreAccumulatorWritesMemory := by
  intro s u i rest hp h hmn hu addr
  obtain ⟨t, heff, rfl⟩ := effect_of_step hp h hu
  rw [afterHandler_mem, heff.mem_eq hmn, State.afterFetch_mem]

/-- Settles O50: by the effect of the instruction's identity on the status byte. -/
theorem flagWritersAreThoseOfTheTable : Obligations.FlagWritersAreThoseOfTheTable := by
  intro s u i rest hp h hu
  obtain ⟨t, heff, rfl⟩ := effect_of_step hp h hu
  rw [afterHandler_p, ← State.afterFetch_p s]
  exact ⟨fun hmn => ⟨heff.flag_eq hmn (by decide) (by decide), heff.flag_eq hmn (by decide) (by decide)⟩, heff.p_eq⟩

end Sys2Proof.Proofs.Step
end

section
/-!
The table-driven engine (42_execution_engine.md R110 to R116) against the step, and what it does at rows that the default table does not
have.
-/
open Sys2Proof Sys2Proof.Machine Sys2Proof.Claims

namespace Sys2Proof.Proofs.Engine

variable {cfg : Config} {s t : State} {op : Byte} {d : Descriptor} {pcb : Addr}

/-! ## One iteration, by the row of the opcode byte -/

theorem executePhase_of_handler (h : handler cfg op d s = .next t) :
    executePhase cfg op d pcb s = .next (afterHandler pcb d.length t) := by rw [executePhase, h, andThen_next]

theorem executePhase_of_fault {k : FaultKind} (h : handler cfg op d s = raiseFault k s) :
    executePhase cfg op d pcb s = raiseFault k s := by rw [executePhase, h, andThen_raiseFault]

theorem iteration_decode_of_row (hwf : cfg.optab.wf = true) (hp : s.phase = .decode op) (hd : cfg.optab.find op = some d)
    (hh : hasHandler d.mnemonic = true) :
    iteration cfg s = executePhase cfg op d s.pc (s.setPhase (.execute op d s.pc)) := by
  simp [iteration, hp, tick, hwf, decodePhase, hd, hh]

theorem iteration_decode_of_no_handler (hwf : cfg.optab.wf = true) (hp : s.phase = .decode op)
    (hno : ∀ d, cfg.optab.find op = some d → hasHandler d.mnemonic = false) :
    iteration cfg s = raiseFault (.unsupportedOpcode op) s := by
  obtain ⟨d, hd, hh, _⟩ | he := iteration_decode_cases hwf hp
  · rw [hno d hd] at hh
    cases hh
  · exact he

/-- Fetch, Decode and Execute at a byte whose row names a handler. -/
theorem iteration_fetch_of_row (hwf : cfg.optab.wf = true) (hp : s.phase = .fetch) (hd : cfg.optab.find s.fetchOpcode = some d)
    (hh : hasHandler d.mnemonic = true) :
    iteration cfg s = executePhase cfg s.fetchOpcode d (s.pc + 1) (s.afterFetch.setPhase (.execute s.fetchOpcode d (s.pc + 1))) := by
  rw [iteration_fetch hwf hp, iteration_decode_of_row hwf rfl hd hh]
  rfl

/-- Fetch and Decode at a byte without a row; raising the fault replaces the phase. -/
theorem iteration_fetch_of_no_row (hwf : cfg.optab.wf = true) (hp : s.phase = .fetch) (hd : cfg.optab.find s.fetchOpcode = none) :
    iteration cfg s = raiseFault (.unsupportedOpcode s.fetchOpcode) s.afterFetch := by
  rw [iteration_fetch hwf hp, iteration_decode_of_no_handler hwf rfl fun d h => by rw [hd] at h; cases h]
  rfl

/-! ## The engine and the step -/

/-- The handler, which finds its operand through the resolver at pc, does what `exec` does with the operand that the decoder assembled
from the bytes at pc. One case for each branch of `instrOf`; the last answers no instruction. -/
theorem handler_eq_exec {i : Instr} (op : Byte)
    (h : instrOf d.mnemonic d.mode (s.mem.readByte s.pc) (s.mem.readByte (s.pc + 1)) = some i) :
    handler chosen op d s = exec i s := by
  obtain ⟨mn, len, cyc, mode⟩ := d
  dsimp only at h
  unfold instrOf at h
  split at h
  case h_27 => cases h
  all_goals
    obtain rfl := Option.some.inj h
    rfl

/-- No instruction but Break reads or writes the phase. -/
theorem exec_setPhase {i : Instr} (hi : i ≠ .brk) (ph : Phase) (s : State) :
    exec i (s.setPhase ph) = andThen (exec i s) fun t => .next (t.setPhase ph) := by
  cases i
  case brk => exact absurd rfl hi
  all_goals rfl

/-- What follows a handler does not depend on which running phase it was in. -/
theorem afterHandler_setPhase (n : Nat) {ph : Phase} (hph : ph ≠ .halted) (ht : t.phase ≠ .halted) :
    afterHandler pcb n (t.setPhase ph) = afterHandler pcb n t := by
  have hrun : (t.setPhase ph).phase ≠ .halted := hph
  by_cases hpc : t.pc = pcb
  · rw [Step.afterHandler_of_pc_eq hrun hpc, Step.afterHandler_of_pc_eq ht hpc]
    rfl
  · rw [Step.afterHandler_of_pc_ne hrun hpc, Step.afterHandler_of_pc_ne ht hpc]
    rfl

/-- An instruction and what follows it do not depend on which running phase the engine was in. -/
theorem exec_afterHandler_setPhase (i : Instr) (n : Nat) {ph : Phase} (hph : ph ≠ .halted) (hs : s.phase ≠ .halted) :
    (andThen (exec i (s.setPhase ph)) fun t => .next (afterHandler pcb n t)) =
      andThen (exec i s) fun t => .next (afterHandler pcb n t) := by
  by_cases hi : i = .brk
  · subst hi
    rfl
  · obtain ⟨t, hexec, heff⟩ := Step.exec_effectOf i s
    have ht : t.phase ≠ .halted := by rwa [heff.phase_eq fun hmn => hi (Step.eq_brk_of_mnemonic hmn)]
    simp only [exec_setPhase hi, hexec, andThen_next, afterHandler_setPhase n hph ht]

theorem hasHandler_mnemonic (i : Instr) : hasHandler i.mnemonic = true := by cases i <;> rfl

theorem runInstr_eq_iteration {i : Instr} {rest : List Byte} (hp : s.phase = .fetch) (h : decode s.instrBytes = .ok (i, rest)) :
    runInstr i s = iteration chosen s := by
  have hrow : chosen.optab.find s.fetchOpcode = some i.descriptor := Step.opcode_of_decode h ▸ find_opcode i
  have hoperand : instrOf i.mnemonic i.mode (s.mem.readByte (s.pc + 1)) (s.mem.readByte (s.pc + 1 + 1)) = some i := by
    have hdec := Step.decode_instrBytes_iff.mp ⟨rest, h⟩
    rw [decodeBytes, show opcodeTable.find s.fetchOpcode = some i.descriptor from hrow] at hdec
    rw [show s.pc + 1 + 1 = s.pc + 2 from BitVec.add_assoc s.pc 1 1]
    exact hdec
  rw [iteration_fetch_of_row chosen_table_wf hp hrow (hasHandler_mnemonic i), executePhase, handler_eq_exec _ hoperand,
    exec_afterHandler_setPhase i _ (by simp) (by simp [hp])]
  rfl

/-- Settles O40: from Fetch, the decoder and the table name the same instruction, and its handler does what `exec` does; in every other
phase the two designs are one. -/
theorem stepAgreesWithTheTableDrivenEngine : Obligations.StepAgreesWithTheTableDrivenEngine := by
  intro s
  by_cases hp : s.phase = .fetch
  · cases hrow : opcodeTable.find s.fetchOpcode with
    | some d =>
      obtain ⟨i, hop, _⟩ := Codec.exists_instr_of_row hrow
      obtain ⟨j, rest, hj⟩ := Step.exists_decode_of_opcode hop
      rw [Step.step_eq_runInstr hp hj, runInstr_eq_iteration hp hj]
    | none =>
      have hno : ∀ i : Instr, i.opcode ≠ s.fetchOpcode := by
        intro i hi
        rw [← hi, find_opcode] at hrow
        cases hrow
      rw [Step.step_of_unsupported hp hno, iteration_fetch_of_no_row chosen_table_wf hp hrow]
  · exact Step.step_eq_iteration_of_ne_fetch hp

/-! ## Any configuration -/

/-- Settles O34: what follows a handler, case by case. -/
theorem advanceSkipsOperandsUnlessPcMoved : Obligations.AdvanceSkipsOperandsUnlessPcMoved := by
  intro cfg s t op d pcb hwf hp ht
  rw [iteration_execute pcb hwf hp, executePhase_of_handler ht]
  refine ⟨fun hhalt => ?_, fun hrun hpc => ?_, fun hrun hpc => ?_⟩
  · rw [afterHandler_halted _ _ _ hhalt]
  · rw [Step.afterHandler_of_pc_eq hrun hpc]
  · rw [Step.afterHandler_of_pc_ne hrun hpc]

theorem addWithCarry_implied (cfg : Config) (s : State) :
    addWithCarry cfg .implied s = raiseFault (.unsupportedAddressingMode Mode.implied.tag) s := by
  rw [addWithCarry, LoadStore.resolve_implied]

/-- The three handlers that call the resolver fault with its fault where the mode is Implied. -/
theorem handler_implied (hmode : d.mode = .implied)
    (hmn : d.mnemonic = .loadAccumulator ∨ d.mnemonic = .storeAccumulator ∨ d.mnemonic = .addWithCarry) :
    handler cfg op d s = raiseFault (.unsupportedAddressingMode Mode.implied.tag) s := by
  obtain h | h | h := hmn
  · simp only [handler, h, hmode, LoadStore.loadAccumulator_implied]
  · simp only [handler, h, hmode, LoadStore.storeAccumulator_implied]
  · simp only [handler, h, hmode, addWithCarry_implied]

/-- Settles O41: the resolver's fault, raised before the handler writes. -/
theorem impliedOperandFaultsBeforeAnyWrite : Obligations.ImpliedOperandFaultsBeforeAnyWrite := by
  intro cfg s op d pcb hwf hp hmode hmn
  rw [iteration_execute pcb hwf hp, executePhase_of_fault (handler_implied hmode hmn)]
  rfl

theorem iteration_of_ill_formed (hwf : cfg.optab.wf = false) (s : State) : iteration cfg s = .refused .illFormedTable := by
  unfold iteration
  cases s.phase <;> simp only [tick_refused hwf, andThen_refused]

/-- Settles O42: Decode at a row without a handler, and every phase under an ill-formed table. -/
theorem tableDefectsFaultOrAreRefused : Obligations.TableDefectsFaultOrAreRefused := by
  intro cfg s op d id
  refine ⟨fun hwf hp hd hmn => ?_, fun hwf => iteration_of_ill_formed hwf s⟩
  have hno : ∀ e, cfg.optab.find op = some e → hasHandler e.mnemonic = false := by
    intro e he
    obtain rfl : d = e := Option.some.inj (hd.symm.trans he)
    rw [hmn, hasHandler]
  rw [iteration_decode_of_no_handler hwf hp hno]
  rfl

theorem wf_of_mem_rows {rows : OpTable} (hwf : rows.rowsWf = true) (hmem : (op, d) ∈ rows) : d.wf = true := by
  induction rows with
  | nil => cases hmem
  | cons r rest ih =>
    obtain ⟨hhead, htail⟩ := Bool.and_eq_true_iff.mp hwf
    obtain rfl | hmem := List.mem_cons.mp hmem
    · exact hhead
    · exact ih htail hmem

/-- Each row of a well-formed table meets R55. -/
theorem length_of_row {table : OpTable} (hwf : table.wf = true) (hd : table.find op = some d) :
    d.length = 1 + d.mode.operandBytes := by
  obtain ⟨hrows, _⟩ := Bool.and_eq_true_iff.mp hwf
  exact eq_of_beq (wf_of_mem_rows hrows (OpTable.find_mem hd))

theorem handler_store_immediate (hmn : d.mnemonic = .storeAccumulator) (hmode : d.mode = .immediate) :
    handler cfg op d s = .next (storeTo s.pc s) := by
  simp only [handler, hmn, hmode, storeAccumulator, State.resolve, Resolver.resolve_immediate]

/-- Settles O43: Immediate resolves to the address of byte 1, where the store goes, and the advance skips that byte. -/
theorem storeThroughImmediateOverwritesItsOwnOperand : Obligations.StoreThroughImmediateOverwritesItsOwnOperand := by
  intro cfg s d hwf hp hd hmn hmode
  have hlen : d.length = 2 := by rw [length_of_row hwf hd, hmode]; rfl
  have hpc : s.pc + 1 + BitVec.ofNat 16 (2 - 1) = s.pc + 2 := BitVec.add_assoc s.pc 1 1
  rw [iteration_fetch_of_row hwf hp hd (by rw [hmn]; rfl), executePhase_of_handler (handler_store_immediate hmn hmode),
    hlen, Step.afterHandler_of_pc_eq (by simp) (by simp)]
  simp only [storeTo_pc, State.setPhase_pc, State.afterFetch_pc, hpc, ← hp]
  rfl

end Sys2Proof.Proofs.Engine
end

section
/-!
What every step keeps (10_state.md R23, "Who writes what"): the canonical form of memory, Zero and Negative not both set, and the register
and flags that no instruction writes. Each is shown of the effects a handler can have and carried over a step by `step_next`.
-/
open Sys2Proof Sys2Proof.Machine Sys2Proof.Claims

namespace Sys2Proof.Proofs.Invariants

/-- What every handler's effect keeps, and what neither pc nor phase bears on, every step keeps. -/
theorem step_keeps (R : State → State → Prop) (hrefl : ∀ s, R s s)
    (heffect : ∀ {base t : State}, HandlerEffect chosen base t → R base t)
    (hlocal : ∀ {s base t u : State}, SameButPcPhase s base → SameButPcPhase t u → R base t → R s u)
    {s u : State} (h : step s = .next u) : R s u := by
  obtain ⟨_, rfl⟩ | ⟨base, t, pcb, len, hbase, heff, rfl⟩ := step_next h
  · exact hrefl u
  · have hafter : SameButPcPhase t (afterHandler pcb len t) := by simp [SameButPcPhase]
    exact hlocal hbase hafter (heffect heff)

/-! ## Memory -/

/-- Settles O44: a handler's effect keeps the canonical form, and what follows it does not touch memory. -/
theorem stepKeepsMemoryCanonical : Obligations.StepKeepsMemoryCanonical := by
  intro s u hwf h
  refine step_keeps (fun s t => s.mem.wf = true → t.mem.wf = true) (fun _ => id) HandlerEffect.mem_wf ?_ h hwf
  rintro s base t u ⟨_, _, _, _, hbase⟩ ⟨_, _, _, _, hafter⟩ hkept hs
  rw [hafter]
  exact hkept (hbase ▸ hs)

/-! ## Zero and Negative -/

theorem znExclusive_of_updateZN {s : State} {p v : Byte} (h : s.p = updateZN p v) : ZnExclusive s := by
  rw [ZnExclusive, h]
  exact FlagUnit.updateZN_exclusive p v

/-- Whatever writes flags ends with UpdateZN, which never leaves both set; the others keep the status byte. -/
theorem znExclusive_of_effect {s t : State} (h : HandlerEffect chosen s t) (hs : ZnExclusive s) : ZnExclusive t := by
  cases h with
  | load v => exact znExclusive_of_updateZN (loadValue_p chosen s v)
  | add m => exact znExclusive_of_updateZN (addValue_p chosen s m)
  | produce v => exact znExclusive_of_updateZN (produceX_p_chosen s v)
  | store ea => exact hs
  | halt => exact hs

theorem znExclusive_congr {s t : State} (h : t.p = s.p) : ZnExclusive t ↔ ZnExclusive s := by rw [ZnExclusive, ZnExclusive, h]

/-- Settles O46. -/
theorem stepKeepsZeroAndNegativeExclusive : Obligations.StepKeepsZeroAndNegativeExclusive := by
  intro s u hs h
  refine step_keeps (fun s t => ZnExclusive s → ZnExclusive t) (fun _ => id) znExclusive_of_effect ?_ h hs
  rintro s base t u ⟨_, _, _, hbase, _⟩ ⟨_, _, _, hafter, _⟩ hkept hs
  exact (znExclusive_congr hafter).mpr (hkept ((znExclusive_congr hbase).mpr hs))

/-! ## Y and the flags without a writer -/

theorem sameInert_trans {s t u : State} (h : SameInert s t) (h' : SameInert t u) : SameInert s u :=
  ⟨h'.1.trans h.1, fun f hf => (h'.2 f hf).trans (h.2 f hf)⟩

theorem sameInert_of_eq {s t : State} (hy : t.y = s.y) (hp : t.p = s.p) : SameInert s t := ⟨hy, fun _ _ => by rw [hp]⟩

/-- The four inert flags are none of the four that an instruction writes. -/
theorem inert_flag_ne {f : Flag} (h : f ∈ [Flag.interruptDisable, Flag.decimalMode, Flag.brk, Flag.break2]) :
    f ≠ .carry ∧ f ≠ .zero ∧ f ≠ .overflow ∧ f ≠ .negative := by
  cases f <;> simp at h ⊢

theorem flagOf_addFlags_inert (policy : AdcOverflow) (p a m : Byte) {f : Flag}
    (h : f ∈ [Flag.interruptDisable, Flag.decimalMode, Flag.brk, Flag.break2]) :
    flagOf (addFlags policy p a m) f = flagOf p f := by
  obtain ⟨hc, hz, hv, hn⟩ := inert_flag_ne h
  simp [flagOf_addFlags, hc, hz, hv, hn]

theorem flagOf_updateZN_inert (p v : Byte) {f : Flag}
    (h : f ∈ [Flag.interruptDisable, Flag.decimalMode, Flag.brk, Flag.break2]) : flagOf (updateZN p v) f = flagOf p f := by
  obtain ⟨_, hz, _, hn⟩ := inert_flag_ne h
  exact FlagUnit.flagOf_updateZN_other hz hn p v

theorem sameInert_of_effect {s t : State} (h : HandlerEffect chosen s t) : SameInert s t := by
  refine ⟨h.y_eq, fun f hf => ?_⟩
  cases h with
  | load v => rw [loadValue_p, flagOf_updateZN_inert _ _ hf]
  | add m => rw [addValue_p, flagOf_addFlags_inert _ _ _ _ hf]
  | produce v => rw [produceX_p_chosen, flagOf_updateZN_inert _ _ hf]
  | store ea => rfl
  | halt => rfl

theorem sameInert_of_step {s u : State} (h : step s = .next u) : SameInert s u := by
  refine step_keeps SameInert (fun _ => sameInert_of_eq rfl rfl) sameInert_of_effect ?_ h
  rintro s base t u ⟨_, _, hy, hp, _⟩ ⟨_, _, hy', hp', _⟩ hkept
  exact sameInert_trans (sameInert_of_eq hy hp) (sameInert_trans hkept (sameInert_of_eq hy' hp'))

/-- Settles O48, by induction on the steps. -/
theorem noStepsWriteTheInertFlagsOrY : Obligations.NoStepsWriteTheInertFlagsOrY := by
  intro s t h
  induction h with
  | refl => exact sameInert_of_eq rfl rfl
  | tail _ hs ih => exact sameInert_trans ih (sameInert_of_step hs)

/-! ## At reset -/

/-- Settles O47: memory is empty at reset, and Zero and Negative of RESET_FLAGS are clear. -/
theorem resetStateMeetsTheInvariants : Obligations.ResetStateMeetsTheInvariants :=
  ⟨Memory.wf_nil, fun ⟨hz, _⟩ => absurd hz (by decide), Memory.readByte_nil⟩

end Sys2Proof.Proofs.Invariants
end

section
/-!
Memory (20_memory.md): a canonical memory is the function it reads as, words are two bytes, and placing a list of bytes is a read at the
offset from its first address.
-/
open Sys2Proof Sys2Proof.Machine Sys2Proof.Claims

namespace Sys2Proof.Proofs.MemoryAccess

/-! ## Extensionality -/

/-- A canonical memory from its own first key on. -/
theorem wfFrom_head {lo k : Nat} {v : Byte} {rest : Memory} (h : Memory.wfFrom lo ((k, v) :: rest) = true) :
    Memory.wfFrom k ((k, v) :: rest) = true := by
  obtain ⟨_, hk, hv, hrest⟩ := Memory.wfFrom_cons.mp h
  exact Memory.wfFrom_cons.mpr ⟨le_refl k, hk, hv, hrest⟩

/-- The key of the first entry reads other than an unlisted one. -/
theorem get_head_ne_unlisted {lo k : Nat} {v : Byte} {rest : Memory} (h : Memory.wfFrom lo ((k, v) :: rest) = true) :
    Memory.get ((k, v) :: rest) k ≠ Memory.unlisted := by
  obtain ⟨_, _, hv, _⟩ := Memory.wfFrom_cons.mp h
  simpa [Memory.get] using hv

/-- Below the first key of the other, a canonical memory that lists a key does not read the same. -/
theorem get_ne_of_lt_head {lo k k' : Nat} {v v' : Byte} {rest rest' : Memory} (hm : Memory.wfFrom lo ((k, v) :: rest) = true)
    (hn : Memory.wfFrom k' ((k', v') :: rest') = true) (hlt : k < k') :
    Memory.get ((k, v) :: rest) k ≠ Memory.get ((k', v') :: rest') k := by
  rw [Memory.get_of_lt hn hlt]
  exact get_head_ne_unlisted hm

/-- By induction on the entries: the least key on which the two could differ is the first of one of them. -/
theorem eq_of_get_eq {lo : Nat} {m n : Memory} (hm : Memory.wfFrom lo m = true) (hn : Memory.wfFrom lo n = true)
    (h : ∀ k < 65536, m.get k = n.get k) : m = n := by
  induction m generalizing lo n with
  | nil =>
    cases n with
    | nil => rfl
    | cons c _ => exact absurd (h c.1 (Memory.wfFrom_cons.mp hn).2.1).symm (get_head_ne_unlisted hn)
  | cons c rest ih =>
    obtain ⟨k, v⟩ := c
    obtain ⟨_, hk, _, hrest⟩ := Memory.wfFrom_cons.mp hm
    cases n with
    | nil => exact absurd (h k hk) (get_head_ne_unlisted hm)
    | cons c' rest' =>
      obtain ⟨k', v'⟩ := c'
      obtain ⟨_, hk', _, hrest'⟩ := Memory.wfFrom_cons.mp hn
      obtain hlt | rfl | hgt := Nat.lt_trichotomy k k'
      · exact absurd (h k hk) (get_ne_of_lt_head hm (wfFrom_head hn) hlt)
      · have hv : v = v' := by simpa [Memory.get] using h k hk
        have htail : ∀ j < 65536, Memory.get rest j = Memory.get rest' j := by
          intro j hj
          obtain hle | hgt := Nat.lt_or_ge j (k + 1)
          · rw [Memory.get_of_lt hrest hle, Memory.get_of_lt hrest' hle]
          · simpa [Memory.get, show k ≠ j by omega] using h j hj
        rw [hv, ih hrest hrest' htail]
      · exact absurd (h k' hk').symm (get_ne_of_lt_head hn (wfFrom_head hm) hgt)

theorem eq_of_readByte_eq {m n : Memory} (hm : m.wf = true) (hn : n.wf = true)
    (h : ∀ addr, m.readByte addr = n.readByte addr) : m = n := by
  refine eq_of_get_eq hm hn fun k hk => ?_
  have hread := h (BitVec.ofNat 16 k)
  rwa [Memory.readByte, Memory.readByte, BitVec.toNat_ofNat, Nat.mod_eq_of_lt hk] at hread

/-- Settles O10: entries rise strictly and are never the byte that an unlisted address reads as. -/
theorem canonicalMemoriesThatReadTheSameAreEqual : Obligations.CanonicalMemoriesThatReadTheSameAreEqual := fun _ _ =>
  eq_of_readByte_eq

theorem writeByte_held {m : Memory} (hwf : m.wf = true) {addr : Addr} {v : Byte} (h : m.readByte addr = v) :
    m.writeByte addr v = m := by
  refine eq_of_readByte_eq (Memory.wf_writeByte hwf addr v) hwf fun other => ?_
  by_cases hother : other = addr
  · rw [hother, Memory.readByte_writeByte_same hwf, h]
  · exact Memory.readByte_writeByte_ne hother v

/-- Settles O11: the memory written is canonical and reads as the one before, so it is the one before. -/
theorem storingTheHeldByteChangesNothing : Obligations.StoringTheHeldByteChangesNothing := by
  intro s d16 hwf h
  change Host.Outcome.next (s.setMem (s.mem.writeByte d16 s.a)) = .next s
  rw [writeByte_held hwf h]
  rfl

/-! ## Words -/

theorem readWord_writeWord {m : Memory} (hwf : m.wf = true) (addr v : Addr) : (m.writeWord addr v).readWord addr = v := by
  obtain ⟨hlow, hhigh, _⟩ := Memory.readByte_writeWord hwf addr v
  rw [Memory.readWord, hlow, hhigh, pair_high_low]

/-- A word access is rejected at 0xFFFF under the reject policy, and nowhere else. -/
theorem wordRejected_iff (policy : WordWrap) (addr : Addr) : wordRejected policy addr = true ↔ policy = .reject ∧ addr = 0xFFFF := by
  cases policy <;> simp [wordRejected]

theorem wordRejected_iff_of_reject {policy : WordWrap} (h : policy = .reject) (addr : Addr) :
    wordRejected policy addr = true ↔ addr = 0xFFFF := (wordRejected_iff policy addr).trans (and_iff_right h)

theorem hostWriteWord_of_accepted {cfg : Config} {addr : Addr} (h : wordRejected cfg.wordWrap addr = false) (v : Addr) (s : State) :
    hostWriteWord cfg addr v s = .ok (s.setMem (s.mem.writeWord addr v)) := by simp [hostWriteWord, h]

theorem hostReadWord_of_accepted {cfg : Config} {addr : Addr} (h : wordRejected cfg.wordWrap addr = false) (s : State) :
    hostReadWord cfg addr s = .ok (s.mem.readWord addr) := by simp [hostReadWord, Memory.readWordUnder, h]

/-- A word write answers a state only where the policy accepts it, and then writes both bytes. -/
theorem hostWriteWord_ok {cfg : Config} {addr v : Addr} {s t : State} (h : hostWriteWord cfg addr v s = .ok t) :
    wordRejected cfg.wordWrap addr = false ∧ t = s.setMem (s.mem.writeWord addr v) := by
  cases hrej : wordRejected cfg.wordWrap addr with
  | true => simp [hostWriteWord, hrej] at h
  | false =>
    rw [hostWriteWord_of_accepted hrej] at h
    exact ⟨rfl, (Except.ok.inj h).symm⟩

/-- Settles O7: the policy accepts the read wherever it accepts the write. -/
theorem wordWriteReadsBack : Obligations.WordWriteReadsBack := by
  intro cfg s addr v hwf
  refine ⟨fun t ht => ?_, fun haccept => ?_⟩
  · obtain ⟨hrej, rfl⟩ := hostWriteWord_ok ht
    rw [hostReadWord_of_accepted hrej, State.setMem_mem, readWord_writeWord hwf]
  · have hrej : wordRejected cfg.wordWrap addr = false := by
      rw [Bool.eq_false_iff, ne_eq, wordRejected_iff]
      rintro ⟨hpolicy, rfl⟩
      simp [hpolicy] at haccept
    exact ⟨_, hostWriteWord_of_accepted hrej v s⟩

theorem ofNat_toNat_add_one (addr : Addr) : BitVec.ofNat 16 ((addr.toNat + 1) % 65536) = addr + 1 := by
  apply BitVec.eq_of_toNat_eq
  rw [BitVec.toNat_ofNat, BitVec.toNat_add, Nat.mod_mod]
  rfl

/-- Settles O8. -/
theorem wordWriteIsLittleEndian : Obligations.WordWriteIsLittleEndian := by
  intro s t addr v other hwf h
  obtain ⟨_, rfl⟩ := hostWriteWord_ok h
  obtain ⟨hlow, hhigh, hother⟩ := Memory.readByte_writeWord hwf addr v
  refine ⟨?low, ?high, fun hne hne1 => hother other hne ?other, ByteAccess.sameRegisters_setMem s _⟩
  case low => rw [hostReadByte, State.setMem_mem, hlow, lowByte_toNat]
  case high => rw [hostReadByte, State.setMem_mem, ofNat_toNat_add_one, hhigh, highByte_toNat]
  case other =>
    rintro rfl
    exact hne1 (BitVec.toNat_add addr 1)

theorem zext16_add_one {p : Byte} (h : p ≠ 0xFF) : zext16 (p + 1) = BitVec.ofNat 16 p.toNat + 1 := by
  have hp := p.isLt
  have hne : p.toNat ≠ 255 := fun he => h (BitVec.eq_of_toNat_eq he)
  apply BitVec.eq_of_toNat_eq
  rw [zext16_toNat, BitVec.toNat_add, BitVec.toNat_add, BitVec.toNat_ofNat, show (1 : Byte).toNat = 1 from rfl,
    show (1 : Addr).toNat = 1 from rfl]
  omega

/-- Settles O9: the pointer is incremented as a byte, which differs from the address after it only at 0xFF. -/
theorem zeroPageWordReadStaysInPageZero : Obligations.ZeroPageWordReadStaysInPageZero := by
  intro m p x
  refine ⟨rfl, fun hp => ?_, rfl, ?_⟩
  · rw [Memory.zpReadWord, zext16_add_one hp, Resolver.zext16_eq_ofNat, Memory.readWord]
  · exact BitVec.add_zero (m.zpReadWord p)

/-! ## Placing a list of bytes -/

/-- After placing a list, an address reads as the byte at its offset from the first address, where the list has one. -/
theorem readByte_placeBytes {m : Memory} (hwf : m.wf = true) {bytes : List Byte} (hlen : bytes.length ≤ 65536)
    (base addr : Addr) :
    (m.placeBytes base bytes).readByte addr = bytes.getD (addr - base).toNat (m.readByte addr) := by
  induction bytes generalizing m base with
  | nil => rfl
  | cons b rest ih =>
    rw [List.length_cons] at hlen
    rw [Memory.placeBytes, ih (Memory.wf_writeByte hwf base b) (by omega)]
    by_cases haddr : addr = base
    · have hpast : rest.length ≤ (base - (base + 1)).toNat := by
        rw [show base - (base + 1) = 65535 by bv_omega]
        exact Nat.le_of_lt_succ hlen
      rw [haddr, Memory.readByte_writeByte_same hwf, List.getD_eq_default _ _ hpast, BitVec.sub_self]
      rfl
    · have hnext : (addr - base).toNat = (addr - (base + 1)).toNat + 1 := by bv_omega
      rw [Memory.readByte_writeByte_ne haddr, hnext, List.getD_cons_succ]

end Sys2Proof.Proofs.MemoryAccess
end

section
/-!
The host's calls (70_reset_and_hazards.md R190 to R199): `load`, `reset()`, and the fetch of a word the host has placed.
-/
open Sys2Proof Sys2Proof.Machine Sys2Proof.Claims

namespace Sys2Proof.Proofs.HostCalls

/-! ## `load` -/

section Load
variable {image : List Byte} {s t : State}

theorem load_of_le (h : image.length ≤ 0x8000) :
    load image s = .next (s.setMem ((copyImage s.mem image).writeWord resetVector loadOrigin)) := by
  rw [load, if_pos (by rw [imageWf, decide_eq_true h])]

theorem load_of_gt (h : 0x8000 < image.length) : load image s = .refused .imageTooLong := by
  rw [load, if_neg (by rw [imageWf, decide_eq_true_iff]; omega)]

/-- A load that is accepted copies the image and then writes the reset vector. -/
theorem load_next (h : load image s = .next t) :
    image.length ≤ 0x8000 ∧ t = s.setMem ((copyImage s.mem image).writeWord resetVector loadOrigin) := by
  obtain hgt | hle := Nat.lt_or_ge 0x8000 image.length
  · rw [load_of_gt hgt] at h
    cases h
  · rw [load_of_le hle] at h
    exact ⟨hle, (Host.Outcome.next.inj h).symm⟩

theorem wf_copyImage (hwf : s.mem.wf = true) (image : List Byte) : (copyImage s.mem image).wf = true :=
  Memory.wf_placeBytes hwf loadOrigin image

theorem readByte_copyImage (hwf : s.mem.wf = true) (h : image.length ≤ 0x8000) (addr : Addr) :
    (copyImage s.mem image).readByte addr = image.getD (addr - loadOrigin).toNat (s.mem.readByte addr) :=
  MemoryAccess.readByte_placeBytes hwf (by omega) loadOrigin addr

end Load

/-- Settles O45: each call writes bytes or leaves memory alone. -/
theorem hostCallsKeepMemoryCanonical : Obligations.HostCallsKeepMemoryCanonical := by
  intro cfg s t image addr v b hwf
  refine ⟨fun h => ?load, fun h => ?writeWord, Memory.wf_writeByte hwf addr b, hwf⟩
  case load =>
    obtain ⟨_, rfl⟩ := load_next h
    exact Memory.wf_writeWord (wf_copyImage hwf image) resetVector loadOrigin
  case writeWord =>
    obtain ⟨_, rfl⟩ := MemoryAccess.hostWriteWord_ok h
    exact Memory.wf_writeWord hwf addr v

/-- An image of at most 0x8000 bytes does not reach round to the addresses below its origin. -/
theorem length_le_offset {image : List Byte} (h : image.length ≤ 0x8000) {addr : Addr}
    (haddr : addr.toNat < 0x8000 ∨ 0x8000 + image.length ≤ addr.toNat) : image.length ≤ (addr - loadOrigin).toNat := by
  have hsub : (addr - loadOrigin).toNat = (addr.toNat + 0x8000) % 65536 := by
    rw [BitVec.toNat_sub, show loadOrigin.toNat = 0x8000 from rfl]
    omega
  omega

theorem offset_of_index {k : Nat} (hk : k < 0x8000) : (BitVec.ofNat 16 (0x8000 + k) - loadOrigin).toNat = k := by
  rw [BitVec.toNat_sub, BitVec.toNat_ofNat, show loadOrigin.toNat = 0x8000 from rfl]
  omega

/-- The image's addresses differ from another address where their indices do. -/
theorem ofNat_origin_ne {k j : Nat} (hk : k < 0x8000) (hj : j < 0x8000) (h : k ≠ j) :
    BitVec.ofNat 16 (0x8000 + k) ≠ BitVec.ofNat 16 (0x8000 + j) := by
  intro he
  exact h (by rw [← offset_of_index hk, he, offset_of_index hj])

/-- Settles O55: the vector is written over the copied image, so elsewhere an address reads as after the copy. -/
theorem loadPlacesTheImageAndTheVector : Obligations.LoadPlacesTheImageAndTheVector := by
  intro image s hwf
  refine ⟨load_of_gt, fun hle => ⟨_, load_of_le hle, ByteAccess.sameRegisters_setMem s _, State.setMem_phase s _, ?_⟩⟩
  obtain ⟨hlow, hhigh, hother⟩ := Memory.readByte_writeWord (wf_copyImage hwf image) resetVector loadOrigin
  refine ⟨hlow, hhigh, fun k b hb hlo hhi => ?image, fun addr hlo hhi haddr => ?outside⟩
  case image =>
    obtain ⟨hk, _⟩ := List.getElem?_eq_some_iff.mp hb
    rw [State.setMem_mem, hother _ (ofNat_origin_ne (by omega) (by omega) hlo) (ofNat_origin_ne (by omega) (by omega) hhi),
      readByte_copyImage hwf hle, offset_of_index (by omega), List.getD_eq_getElem?_getD, hb, Option.getD_some]
  case outside =>
    rw [State.setMem_mem, hother addr hlo hhi, readByte_copyImage hwf hle, List.getD_eq_default _ _ (length_le_offset hle haddr)]

/-! ## `reset()` -/

theorem hostReset_y_of_cleared {cfg : Config} (h : cfg.resetClearsY = true) (s : State) : (hostReset cfg s).y = 0 := by
  rw [Reset.hostReset_y, if_pos h]

theorem hostReset_pc (cfg : Config) (s : State) : (hostReset cfg s).pc = s.mem.readWord resetVector := rfl

/-- Settles O52. -/
theorem resetLoadsTheVectorAndTheFlagPattern : Obligations.ResetLoadsTheVectorAndTheFlagPattern := by
  intro cfg s
  refine ⟨rfl, rfl, fun h => hostReset_y_of_cleared h s, fun h => Reset.hostReset_y_of_kept h s, rfl, ?_, fun _ => rfl⟩
  rw [hostReset_pc, Memory.readWord, pair_toNat]
  rfl

/-- Settles O54: the vector of zeroed memory is 0x0000. -/
theorem resetStateIsConstructionThenReset : Obligations.ResetStateIsConstructionThenReset :=
  ⟨rfl, Memory.readByte_nil, rfl, rfl, rfl, rfl, rfl⟩

/-- Settles O56: the reset reads back the vector that `load` wrote last. -/
theorem loadThenResetStartsAtTheOrigin : Obligations.LoadThenResetStartsAtTheOrigin := by
  intro image s t cfg hwf h hy
  obtain ⟨_, rfl⟩ := load_next h
  refine ⟨?_, rfl, rfl, hostReset_y_of_cleared hy _, rfl⟩
  rw [hostReset_pc, State.setMem_mem, MemoryAccess.readWord_writeWord (wf_copyImage hwf image), loadOrigin]

/-! ## The host's hook -/

@[simp] theorem withFetchWord_pc (s : State) (nbits w : Nat) : (s.withFetchWord nbits w).pc = s.pc := rfl

@[simp] theorem withFetchWord_phase (s : State) (nbits w : Nat) : (s.withFetchWord nbits w).phase = .fetch := rfl

/-- The three bytes placed at pc are the three that the step decodes. -/
theorem instrBytes_withFetchWord {s : State} (hwf : s.mem.wf = true) (nbits w : Nat) :
    (s.withFetchWord nbits w).instrBytes = tableBytes nbits w := by
  have hlen : (tableBytes nbits w).length ≤ 65536 := show 3 ≤ 65536 by decide
  have hread : ∀ addr, (s.withFetchWord nbits w).mem.readByte addr =
      (tableBytes nbits w).getD (addr - s.pc).toNat (s.mem.readByte addr) :=
    MemoryAccess.readByte_placeBytes hwf hlen s.pc
  have h1 : s.pc + 1 - s.pc = 1 := by bv_omega
  have h2 : s.pc + 2 - s.pc = 2 := by bv_omega
  rw [State.instrBytes, hread, hread, hread, withFetchWord_pc, BitVec.sub_self, h1, h2]
  rfl

theorem decode_of_decodeTableWord {nbits w : Nat} {i : Instr} (h : decodeTableWord nbits w = some i) :
    ∃ rest, decode (tableBytes nbits w) = .ok (i, rest) := by
  unfold decodeTableWord at h
  cases hdec : decode (tableBytes nbits w) with
  | error e => simp [hdec] at h
  | ok p =>
    simp only [hdec, Option.some.injEq] at h
    exact ⟨p.2, by rw [← h]⟩

/-- Settles O59: what the step decodes is the placed word. -/
theorem placedWordIsTheInstructionRun : Obligations.PlacedWordIsTheInstructionRun := by
  intro s nbits w i hwf h
  obtain ⟨rest, hdec⟩ := decode_of_decodeTableWord h
  rw [← instrBytes_withFetchWord hwf nbits w] at hdec
  exact ⟨Step.step_eq_runInstr (withFetchWord_phase s nbits w) hdec, withFetchWord_pc s nbits w⟩

end Sys2Proof.Proofs.HostCalls
end

section
/-!
Addition in the flag-computation unit (40_flag_unit.md R76 to R80): the forms of signed overflow, what AddFlags writes and keeps, and the
operations that do not touch P or touch less of it than the chosen parameters say.
-/
open Sys2Proof Sys2Proof.Machine Sys2Proof.Claims

namespace Sys2Proof.Proofs.Addition

/-! ## Signed overflow -/

/-- The mask of the second form picks bit 7. -/
theorem and_0x80_ne_zero_iff (v : Byte) : v &&& 0x80 ≠ 0 ↔ v.getLsbD 7 = true := by
  have hmask : v &&& 0x80 = (if v.getLsbD 7 then BitVec.twoPow 8 7 else 0#8) := BitVec.and_twoPow v 7
  rw [hmask]
  cases v.getLsbD 7 <;> decide

theorem signedOverflow_iff_mask (a m : Byte) (cin : Bool) :
    signedOverflow a m cin = true ↔ ((a ^^^ addResult a m cin) &&& (m ^^^ addResult a m cin) &&& 0x80) ≠ 0 := by
  rw [and_0x80_ne_zero_iff, BitVec.getLsbD_and, BitVec.getLsbD_xor, BitVec.getLsbD_xor, signedOverflow]
  cases a.getLsbD 7 <;> cases m.getLsbD 7 <;> cases (addResult a m cin).getLsbD 7 <;> decide

/-- A byte is negative when it is 128 or more. -/
theorem toInt_byte (v : Byte) : v.toInt = if v.toNat < 128 then (v.toNat : Int) else v.toNat - 256 := by
  have hv := v.isLt
  rw [BitVec.toInt_eq_toNat_cond]
  split <;> split <;> omega

/-- The first form with the sign bits read as numbers. -/
theorem signedOverflow_iff (a m : Byte) (cin : Bool) :
    signedOverflow a m cin = true ↔
      (128 ≤ a.toNat ↔ 128 ≤ m.toNat) ∧ ¬(128 ≤ (a.toNat + m.toNat + cin.toNat) % 256 ↔ 128 ≤ a.toNat) := by
  rw [← addResult_toNat, ← byte_bit7, ← byte_bit7, ← byte_bit7, signedOverflow, Bool.and_eq_true, beq_iff_eq, bne_iff_ne, ne_eq,
    @Bool.eq_iff_iff (a.getLsbD 7) (m.getLsbD 7), @Bool.eq_iff_iff ((addResult a m cin).getLsbD 7) (a.getLsbD 7)]

theorem signedOverflow_iff_signedSum (a m p : Byte) :
    signedOverflow a m (carryIn p) = true ↔ signedSum a m p < -128 ∨ 127 < signedSum a m p := by
  have ha := a.isLt
  have hm := m.isLt
  have hc : carryOf p ≤ 1 := by rw [← FlagUnit.toNat_carryIn]; exact Bool.toNat_le _
  rw [signedOverflow_iff, FlagUnit.toNat_carryIn, signedSum, toInt_byte, toInt_byte]
  split <;> split <;> omega

/-- Settles O15: the mask reads the sign bits of the first form, and the sum leaves the signed range when they say so. -/
theorem threeFormsOfOverflowAgree : Obligations.ThreeFormsOfOverflowAgree := fun a m p =>
  ⟨signedOverflow_iff_mask a m (carryIn p), signedOverflow_iff_signedSum a m p⟩

/-! ## AddFlags -/

theorem addWritten_addFlags (a m p : Byte) : AddWritten a m p (addFlags .computed p a m) := by
  have hresult : (addResult a m (carryIn p)).toNat = (a.toNat + m.toNat + carryOf p) % 256 := by
    rw [addResult_toNat, FlagUnit.toNat_carryIn]
  refine ⟨?carry, ?zero, ?overflow, ?negative, fun f hc hz hv hn => ?kept⟩
  case carry => rw [FlagUnit.carry_addFlags, FlagUnit.carryOut_iff, FlagUnit.toNat_carryIn]
  case zero => rw [addFlags, FlagUnit.zero_updateZN_iff, ← hresult, BitVec.toNat_eq]; rfl
  case overflow => rw [← signedOverflow_iff_signedSum]; simp [flagOf_addFlags, overflowOut]
  case negative => rw [addFlags, FlagUnit.negative_updateZN_iff, hresult]
  case kept => simp [flagOf_addFlags, hc, hz, hv, hn]

/-- DecimalMode is not the carry-in. -/
theorem carryIn_insert_decimalMode (p : Byte) : carryIn (flagInsert p Flag.decimalMode.index) = carryIn p := by
  rw [carryIn, flagOf_insert, if_neg (by decide), carryIn]

/-- Flag by flag: DecimalMode itself is kept, the carry-in does not depend on it, and the flags written come from the sum. -/
theorem addFlags_insert_decimalMode (p a m : Byte) :
    addFlags .computed (flagInsert p Flag.decimalMode.index) a m = flagInsert (addFlags .computed p a m) Flag.decimalMode.index := by
  apply flags_ext
  intro f
  rw [flagOf_insert, flagOf_addFlags, flagOf_addFlags, overflowOut, overflowOut, carryIn_insert_decimalMode, flagOf_insert]
  cases f <;> rfl

theorem fcu_add {i : FcuIn} (h : i.fop = 2) :
    (fcu i).pOut = addFlags .computed i.pIn i.a i.m ∧ (fcu i).r = addResult i.a i.m (carryIn i.pIn) := by
  simp [fcu, h]

/-- Settles O16. -/
theorem addFlagsWritesCarryOverflowZeroNegative : Obligations.AddFlagsWritesCarryOverflowZeroNegative := fun a m p _ =>
  ⟨addWritten_addFlags a m p, addFlags_insert_decimalMode p a m, fcu_add⟩

/-! ## Holding P -/

/-- The codes that name no operation. -/
theorem fcu_hold {i : FcuIn} (h : i.fop = 0 ∨ 5 ≤ i.fop.toNat) : (fcu i).pOut = i.pIn ∧ (fcu i).r = i.val := by
  have hcode : i.fop = 0 ∨ i.fop = 5 ∨ i.fop = 6 ∨ i.fop = 7 := h.imp_right fun hge => by bv_omega
  obtain h | h | h | h := hcode <;> simp [fcu, h]

/-- A flag is the digit of P at its weight. -/
theorem toNat_flagOf (p : Byte) (f : Flag) : (flagOf p f).toNat = p.toNat / 2 ^ f.index.toNat % 2 := by
  have hiff := FlagUnit.flagTest_iff p f.index
  rw [flagOf]
  cases h : flagTest p f.index with
  | true => rw [hiff.mp h]; rfl
  | false =>
    have hne : ¬p.toNat / 2 ^ f.index.toNat % 2 = 1 := fun h1 => by rw [hiff.mpr h1] at h; cases h
    rw [Bool.toNat_false]
    omega

/-- Settles O17: P written in base 2. -/
theorem holdKeepsPAndPIsItsEightFlags : Obligations.HoldKeepsPAndPIsItsEightFlags := by
  intro i p
  refine ⟨fcu_hold, ?_⟩
  have hp := p.isLt
  simp only [toNat_flagOf, Flag.index, BitVec.reduceToNat, Nat.reducePow]
  omega

/-! ## The baseline alternatives -/

theorem incrementX_p_of_accumulator {cfg : Config} (h : cfg.znSource = .accumulator) (s : State) :
    (incrementX cfg s).p = updateZN s.p s.a := by
  simp only [incrementX, produceX, State.updateZN_p, h, znOperand, State.setX_p, State.setX_a]

/-- Settles O18. -/
theorem baselineAlternativesOfTheFlags : Obligations.BaselineAlternativesOfTheFlags := by
  intro cfg s m
  refine ⟨fun h => ⟨?znWritten, produceX_x cfg s _⟩, fun h => ?overflow⟩
  case znWritten => rw [incrementX_p_of_accumulator h]; exact FlagUnit.znWritten_updateZN s.p s.a
  case overflow => simp [addValue_p, flagOf_addFlags, h, overflowOut]

end Sys2Proof.Proofs.Addition
end

section
/-!
The addressing-mode resolver (41_addressing_resolver.md): the Absolute modes (R95 to R97), Indirect_Y (R99), the port with a mode tag
(R101), the cells each mode reads (R102), and the alternatives U1 and U2.
-/
open Sys2Proof Sys2Proof.Machine Sys2Proof.Claims

namespace Sys2Proof.Proofs.ResolverModes

variable {cfg : Config} {m n : Memory}

/-! ## The Absolute modes under either policy of U1 -/

section Absolute
variable (cfg) (pc : Addr) (x y : Byte) (m)

theorem resolve_absolute : resolve cfg .absolute pc x y m = (m.readWordUnder cfg.wordWrap pc).map absoluteAddr := rfl

theorem resolve_absoluteX : resolve cfg .absoluteX pc x y m = (m.readWordUnder cfg.wordWrap pc).map (absoluteIndexedAddr · x) := rfl

theorem resolve_absoluteY : resolve cfg .absoluteY pc x y m = (m.readWordUnder cfg.wordWrap pc).map (absoluteIndexedAddr · y) := rfl

theorem readWordUnder_chosen : m.readWordUnder chosen.wordWrap pc = .ok (m.readWord pc) := rfl

end Absolute

theorem toNat_readWord (m : Memory) (pc : Addr) :
    (m.readWord pc).toNat =
      (m.readByte pc).toNat + 256 * (m.readByte (BitVec.ofNat 16 ((pc.toNat + 1) % 65536))).toNat := by
  rw [MemoryAccess.ofNat_toNat_add_one, Memory.readWord, pair_toNat]

theorem toNat_absoluteIndexedAddr (d16 : Addr) (index : Byte) :
    (absoluteIndexedAddr d16 index).toNat = (d16.toNat + index.toNat) % 65536 := by
  rw [absoluteIndexedAddr, BitVec.toNat_add, zext16_toNat]

/-- Settles O21: the operand is the word at pc, and the index is added to it as a 16-bit number. -/
theorem resolveAbsoluteModesWrapModulo65536 : Obligations.ResolveAbsoluteModesWrapModulo65536 := by
  intro pc x y m w hw
  rw [← toNat_readWord] at hw
  rw [resolve_absolute, resolve_absoluteX, resolve_absoluteY, readWordUnder_chosen, hw]
  exact ⟨⟨_, rfl, rfl⟩, ⟨_, rfl, toNat_absoluteIndexedAddr _ x⟩, ⟨_, rfl, toNat_absoluteIndexedAddr _ y⟩⟩

/-- A word read is rejected at 0xFFFF under the reject policy, and nowhere else. -/
theorem readWordUnder_rejected_iff (h : cfg.wordWrap = .reject) (m : Memory) (addr : Addr) :
    m.readWordUnder cfg.wordWrap addr = .error (.wordAccessRejected addr) ↔ addr = 0xFFFF := by
  rw [Memory.readWordUnder, ← MemoryAccess.wordRejected_iff_of_reject h]
  cases wordRejected cfg.wordWrap addr <;> simp

/-- An address computed from a word faults exactly where reading the word does. -/
theorem map_eq_error_iff {e : Except FaultKind Addr} {f : Addr → Addr} {k : FaultKind} : e.map f = .error k ↔ e = .error k := by
  cases e <;> simp [Except.map]

theorem hostWriteWord_rejected_iff (h : cfg.wordWrap = .reject) (addr v : Addr) (s : State) :
    hostWriteWord cfg addr v s = .error (.wordAccessRejected addr) ↔ addr = 0xFFFF := by
  rw [hostWriteWord, ← MemoryAccess.wordRejected_iff_of_reject h]
  cases wordRejected cfg.wordWrap addr <;> simp

/-- Settles O26: each access is a word access at `addr`, with nothing or an index added to what it reads. -/
theorem rejectedWordAccessFaultsAtFFFFOnly : Obligations.RejectedWordAccessFaultsAtFFFFOnly := by
  intro cfg s addr x y h
  have hread := readWordUnder_rejected_iff h s.mem addr
  rw [resolve_absolute, resolve_absoluteX, resolve_absoluteY, map_eq_error_iff, map_eq_error_iff, map_eq_error_iff]
  exact ⟨hread, fun v => hostWriteWord_rejected_iff h addr v s, hread, hread, hread⟩

/-! ## Indirect_Y under either policy of U2 -/

theorem resolve_indirectY (cfg : Config) (pc : Addr) (x y : Byte) (m : Memory) :
    resolve cfg .indirectY pc x y m = .ok (indirectYAddr cfg.indyPolicy m (m.readByte pc) y) := rfl

/-- With nothing to add, adding before or after the word is read makes no difference. -/
theorem indirectYAddr_zero (policy : IndyPolicy) (m : Memory) (ptr : Byte) :
    indirectYAddr policy m ptr 0x00 = m.zpReadWord ptr := by
  cases policy with
  | dereferenceThenAdd => exact BitVec.add_zero (m.zpReadWord ptr)
  | addThenDereference => exact congrArg m.zpReadWord (BitVec.add_zero ptr)

/-- Settles O23. -/
theorem resolveIndirectYDereferencesThenAddsY : Obligations.ResolveIndirectYDereferencesThenAddsY := by
  intro pc x y m ptr cfg hptr
  refine ⟨⟨_, resolve_indirectY chosen pc x y m, ?number⟩, fun h => ?baseline, ?agree⟩
  case number => rw [hptr, ← Resolver.toNat_zpReadWord]; exact toNat_absoluteIndexedAddr (m.zpReadWord (m.readByte pc)) y
  case baseline => rw [resolve_indirectY, h, Resolver.resolve_indirectX]; rfl
  case agree => rw [resolve_indirectY, resolve_indirectY, indirectYAddr_zero, indirectYAddr_zero]

/-! ## The port with a mode tag -/

theorem ofTag_tag (mode : Mode) : Mode.ofTag mode.tag = some mode := by cases mode <;> rfl

theorem ofTag_eq_none {tag : BitVec 4} (h : 10 ≤ tag.toNat) : Mode.ofTag tag = none := by
  have hcode : tag = 10 ∨ tag = 11 ∨ tag = 12 ∨ tag = 13 ∨ tag = 14 ∨ tag = 15 := by bv_omega
  obtain rfl | rfl | rfl | rfl | rfl | rfl := hcode <;> rfl

/-- Settles O24. -/
theorem tagPortResolvesModesAndFaultsOnUnusedCodes : Obligations.TagPortResolvesModesAndFaultsOnUnusedCodes := by
  intro cfg mode tag pc x y m
  exact ⟨by rw [resolveTag, ofTag_tag], fun h => by rw [resolveTag, ofTag_eq_none h]⟩

/-! ## The cells a mode reads -/

theorem zpReadWord_congr {p : Byte} (hlow : n.readByte (zext16 p) = m.readByte (zext16 p))
    (hhigh : n.readByte (zext16 (p + 1)) = m.readByte (zext16 (p + 1))) : n.zpReadWord p = m.zpReadWord p := by
  rw [Memory.zpReadWord, Memory.zpReadWord, hlow, hhigh]

theorem readWord_congr {pc : Addr} (hlow : n.readByte pc = m.readByte pc) (hhigh : n.readByte (pc + 1) = m.readByte (pc + 1)) :
    n.readWord pc = m.readWord pc := by
  rw [Memory.readWord, Memory.readWord, hlow, hhigh]

theorem resolve_congr {mode : Mode} {pc : Addr} {x : Byte} (y : Byte)
    (h : ∀ addr ∈ cellsRead mode pc x m, n.readByte addr = m.readByte addr) :
    resolve chosen mode pc x y n = resolve chosen mode pc x y m := by
  cases mode <;> simp only [cellsRead, List.forall_mem_cons, List.not_mem_nil, false_implies, implies_true, and_true] at h
  case immediate | implied => rfl
  case zeroPage => rw [Resolver.resolve_zeroPage, Resolver.resolve_zeroPage, h]
  case zeroPageX => rw [Resolver.resolve_zeroPageX, Resolver.resolve_zeroPageX, h]
  case zeroPageY => rw [Resolver.resolve_zeroPageY, Resolver.resolve_zeroPageY, h]
  case absolute =>
    rw [resolve_absolute, resolve_absolute, readWordUnder_chosen, readWordUnder_chosen, readWord_congr h.1 h.2]
  case absoluteX =>
    rw [resolve_absoluteX, resolve_absoluteX, readWordUnder_chosen, readWordUnder_chosen, readWord_congr h.1 h.2]
  case absoluteY =>
    rw [resolve_absoluteY, resolve_absoluteY, readWordUnder_chosen, readWordUnder_chosen, readWord_congr h.1 h.2]
  case indirectX =>
    obtain ⟨hbase, hlow, hhigh⟩ := h
    rw [Resolver.resolve_indirectX, Resolver.resolve_indirectX, hbase, zpReadWord_congr hlow hhigh]
  case indirectY =>
    obtain ⟨hptr, hlow, hhigh⟩ := h
    change Except.ok (n.zpReadWord (n.readByte pc) + zext16 y) = .ok (m.zpReadWord (m.readByte pc) + zext16 y)
    rw [hptr, zpReadWord_congr hlow hhigh]

theorem cellsRead_length_le (mode : Mode) (pc : Addr) (x : Byte) (m : Memory) : (cellsRead mode pc x m).length ≤ 3 := by
  cases mode <;> simp [cellsRead]

/-- Settles O25: mode by mode, the answer is computed from the listed cells. -/
theorem resolverReadsAtMostThreeCells : Obligations.ResolverReadsAtMostThreeCells := fun mode pc x y m _ =>
  ⟨cellsRead_length_le mode pc x m, resolve_congr y⟩

end Sys2Proof.Proofs.ResolverModes
end

section
/-!
AddWithCarry, TransferAccumulatorToX, IncrementX and Break (44_arithmetic.md R140, 45_register_ops.md R150 and R151, 46_system.md R160):
what each leaves, in every state.
-/
open Sys2Proof Sys2Proof.Machine Sys2Proof.Claims

namespace Sys2Proof.Proofs.Instructions

theorem adds_addValue (m : Byte) (s : State) : Adds m s (addValue chosen m s) := by
  have hresult : (addValue chosen m s).a.toNat = (s.a.toNat + m.toNat + carryOf s.p) % 256 := by
    rw [addValue_a, addResult_toNat, FlagUnit.toNat_carryIn]
  exact ⟨hresult, Addition.addWritten_addFlags s.a m s.p, addValue_x chosen s m, addValue_y chosen s m, addValue_pc chosen s m,
    addValue_phase chosen s m, fun _ => by rw [addValue_mem]⟩

theorem adds_addFrom (ea : Addr) (s : State) : Adds (s.mem.readByte ea) s (addFrom chosen ea s) := adds_addValue (s.mem.readByte ea) s

/-- Settles O29: each form's arm of `exec` is `addValue` of its operand or `addFrom` its address. -/
theorem addWithCarryAddsAndSetsCVZN : Obligations.AddWithCarryAddsAndSetsCVZN := by
  intro s d8 d16 cfg
  refine ⟨?immediate, ?zeroPage, ?zeroPageX, ?absolute, ?absoluteX, ?absoluteY, ?indirectX, ?indirectY, ?implied⟩
  case immediate => exact ⟨_, rfl, adds_addValue d8 s⟩
  case zeroPage => exact ⟨_, rfl, adds_addFrom (zeroPageAddr d8) s⟩
  case zeroPageX => exact ⟨_, rfl, adds_addFrom (zeroPageIndexedAddr d8 s.x) s⟩
  case absolute => exact ⟨_, rfl, adds_addFrom (absoluteAddr d16) s⟩
  case absoluteX => exact ⟨_, rfl, adds_addFrom (absoluteIndexedAddr d16 s.x) s⟩
  case absoluteY => exact ⟨_, rfl, adds_addFrom (absoluteIndexedAddr d16 s.y) s⟩
  case indirectX => exact ⟨_, rfl, adds_addFrom (indirectXAddr s.mem d8 s.x) s⟩
  case indirectY => exact ⟨_, rfl, adds_addFrom (indirectYAddr chosen.indyPolicy s.mem d8 s.y) s⟩
  case implied => exact Engine.addWithCarry_implied cfg s

/-- Settles O30. -/
theorem transferAccumulatorToXSetsXAndZN : Obligations.TransferAccumulatorToXSetsXAndZN := fun s =>
  ⟨produceX chosen s.a s, rfl, produceX_x chosen s s.a, FlagUnit.znWritten_updateZN s.p s.a, produceX_a chosen s s.a,
    produceX_y chosen s s.a, produceX_pc chosen s s.a, produceX_phase chosen s s.a, fun _ => rfl⟩

/-- Settles O31. -/
theorem incrementXWrapsAndSetsZN : Obligations.IncrementXWrapsAndSetsZN := fun s =>
  ⟨produceX chosen (s.x + 1) s, rfl, BitVec.toNat_add s.x 1, FlagUnit.znWritten_updateZN s.p (s.x + 1), produceX_a chosen s _,
    produceX_y chosen s _, produceX_pc chosen s _, produceX_phase chosen s _, fun _ => rfl⟩

theorem exec_brk (s : State) : exec .brk s = .next (s.setPhase .halted) := rfl

/-- The opcode byte 0x00 is Break's, whatever follows it. -/
theorem step_at_zero {s : State} (hp : s.phase = .fetch) (h : s.mem.readByte s.pc = 0x00) :
    step s = .next (s.afterFetch.setPhase .halted) := by
  have hbytes : s.instrBytes = encode .brk ++ [s.mem.readByte (s.pc + 1), s.mem.readByte (s.pc + 2)] := by
    rw [State.instrBytes, h]
    rfl
  have hdec : decode s.instrBytes = .ok (.brk, [s.mem.readByte (s.pc + 1), s.mem.readByte (s.pc + 2)]) :=
    hbytes ▸ Codec.decode_encode .brk _
  rw [Step.step_eq_runInstr hp hdec, runInstr, exec_brk, andThen_next, afterHandler_halted _ _ _ rfl]

/-- Settles O32. -/
theorem breakHaltsAndChangesNothingElse : Obligations.BreakHaltsAndChangesNothingElse := by
  intro s
  refine ⟨⟨_, exec_brk s, rfl, ⟨rfl, rfl, rfl, rfl, rfl⟩, fun _ => rfl⟩, fun hp h => ?_⟩
  exact ⟨_, step_at_zero hp h, rfl, BitVec.toNat_add s.pc 1, rfl, rfl, rfl, rfl, fun _ => rfl⟩

end Sys2Proof.Proofs.Instructions
end

section
/-!
Runs (42_execution_engine.md, "The run"): the budget, the end of a run that halts, and a store seen by the next fetch.
-/
open Sys2Proof Sys2Proof.Machine Sys2Proof.Claims

namespace Sys2Proof.Proofs.Run

/-! ## The loop, one step at a time -/

section Loop
variable {stepFn : State → Result} {n : Nat} {s t : State}

theorem runLoop_of_halts (hs : stepFn s = .next t) (ht : t.phase = .halted) : runLoop stepFn (n + 1) s = .halted t := by
  simp [runLoop, hs, ht]

theorem runLoop_of_runs (hs : stepFn s = .next t) (ht : t.phase ≠ .halted) : runLoop stepFn (n + 1) s = runLoop stepFn n t := by
  simp [runLoop, hs, ht]

theorem runLoop_of_fault {f : Fault} (hs : stepFn s = .fault f) : runLoop stepFn (n + 1) s = .faulted f := by simp [runLoop, hs]

theorem runLoop_of_refused {r : Refusal} (hs : stepFn s = .refused r) : runLoop stepFn (n + 1) s = .refused r := by
  simp [runLoop, hs]

/-- A run that has ended takes no more of a larger budget. -/
theorem runLoop_add (k : Nat) (h : ∀ u, runLoop stepFn n s ≠ .unfinished u) : runLoop stepFn (n + k) s = runLoop stepFn n s := by
  induction n generalizing s with
  | zero => exact absurd rfl (h s)
  | succ n ih =>
    rw [Nat.add_right_comm]
    cases hs : stepFn s with
    | next t =>
      by_cases ht : t.phase = .halted
      · rw [runLoop_of_halts hs ht, runLoop_of_halts hs ht]
      · rw [runLoop_of_runs hs ht] at h
        rw [runLoop_of_runs hs ht, runLoop_of_runs hs ht, ih h]
    | fault f => rw [runLoop_of_fault hs, runLoop_of_fault hs]
    | refused r => rw [runLoop_of_refused hs, runLoop_of_refused hs]

end Loop

/-- Settles O57: a run sets the phase it starts in. -/
theorem runEndIsStableAndForgetsTheLastRun : Obligations.RunEndIsStableAndForgetsTheLastRun := fun _ k _ _ _ =>
  ⟨rfl, fun hend hrun => (runLoop_add k hend).trans hrun⟩

/-! ## Halting -/

/-- A step from Fetch that halts ran Break, which left pc one past its opcode byte. -/
theorem read_before_pc_of_step_halts {s t : State} (hp : s.phase = .fetch) (h : step s = .next t) (ht : t.phase = .halted) :
    t.mem.readByte (t.pc - 1) = 0x00 := by
  obtain ⟨i, rest, hdec, _⟩ | ⟨_, hs⟩ := step_fetch_cases hp
  · by_cases hi : i = .brk
    · subst hi
      have hzero : s.mem.readByte s.pc = 0x00 := (Step.opcode_of_decode hdec).symm
      rw [Instructions.step_at_zero hp hzero] at h
      obtain rfl := Host.Outcome.next.inj h
      rw [State.setPhase_mem, State.setPhase_pc, State.afterFetch_mem, State.afterFetch_pc, BitVec.add_sub_cancel, hzero]
    · obtain ⟨u, hu, _, hfetch⟩ := Step.programCounterAdvancesByTheLength s i rest hp hdec hi
      obtain rfl : u = t := Host.Outcome.next.inj (hu.symm.trans h)
      rw [hfetch] at ht
      cases ht
  · exact absurd (hs ▸ h) (raiseFault_ne_next _ _ _)

/-- A step from Fetch that goes on is back in Fetch. -/
theorem phase_of_step_runs {s t : State} (hp : s.phase = .fetch) (h : step s = .next t) (ht : t.phase ≠ .halted) :
    t.phase = .fetch := by
  obtain ⟨hhalt, _⟩ | ⟨_, u, pcb, len, _, _, rfl⟩ := step_next h
  · rw [hp] at hhalt
    cases hhalt
  · exact (afterHandler_phase pcb len u).resolve_left ht

theorem runLoop_halted {n : Nat} {s t : State} (hp : s.phase = .fetch) (h : runLoop step n s = .halted t) :
    t.phase = .halted ∧ t.mem.readByte (t.pc - 1) = 0x00 := by
  induction n generalizing s with
  | zero => cases h
  | succ n ih =>
    cases hs : step s with
    | next u =>
      by_cases hu : u.phase = .halted
      · rw [runLoop_of_halts hs hu] at h
        obtain rfl := RunResult.halted.inj h
        exact ⟨hu, read_before_pc_of_step_halts hp hs hu⟩
      · rw [runLoop_of_runs hs hu] at h
        exact ih (phase_of_step_runs hp hs hu) h
    | fault f => rw [runLoop_of_fault hs] at h; cases h
    | refused r => rw [runLoop_of_refused hs] at h; cases h

/-- Settles O58: by induction on the budget, every state before the last is in Fetch. -/
theorem haltedRunsEndJustAfterABreak : Obligations.HaltedRunsEndJustAfterABreak := fun _ s _ h =>
  runLoop_halted (State.startRun_phase s) h

/-! ## A store seen by the next fetch -/

theorem exec_staAbsolute (d16 : Addr) (s : State) : exec (.staAbsolute d16) s = .next (storeTo d16 s) := rfl

/-- The step at a StoreAccumulator of mode Absolute, as a whole state. -/
theorem step_staAbsolute {s : State} {d16 : Addr} {rest : List Byte} (hp : s.phase = .fetch)
    (h : decode s.instrBytes = .ok (.staAbsolute d16, rest)) :
    step s = .next { s with mem := s.mem.writeByte d16 s.a, pc := s.pc + 3 } := by
  have hpc : s.pc + 1 + BitVec.ofNat 16 (3 - 1) = s.pc + 3 := BitVec.add_assoc s.pc 1 2
  rw [Step.step_eq_runInstr hp h, runInstr, exec_staAbsolute, andThen_next, Step.afterHandler_of_pc_eq (by simp [hp]) (by simp),
    show (Instr.staAbsolute d16).length = 3 from rfl, storeTo_pc, State.afterFetch_pc, hpc, ← hp]
  rfl

/-- A step from Fetch answers by the opcode byte it finds. -/
theorem step_by_fetchOpcode {s : State} {b : Byte} (hp : s.phase = .fetch) (hb : s.fetchOpcode = b) :
    ((∀ i : Instr, i.opcode ≠ b) → ∃ u, step s = .fault (.unsupportedOpcode b u)) ∧
      ((∃ i : Instr, i.opcode = b) → ∃ u, step s = .next u) := by
  subst hb
  exact ⟨fun hno => ⟨_, Step.step_of_unsupported hp hno⟩, fun ⟨_, hi⟩ => Step.step_of_supported hp hi⟩

/-- Settles O51: the store and the advance meet at pc + 3. -/
theorem storedByteIsTheNextOpcodeFetched : Obligations.StoredByteIsTheNextOpcodeFetched := by
  intro s rest hwf hp h
  have hfetch : State.fetchOpcode { s with mem := s.mem.writeByte (s.pc + 3) s.a, pc := s.pc + 3 } = s.a :=
    Memory.readByte_writeByte_same hwf (s.pc + 3) s.a
  exact ⟨_, step_staAbsolute hp h, hfetch, step_by_fetchOpcode hp hfetch⟩

end Sys2Proof.Proofs.Run
end
